-- ==== Sys2Proof/Word.lean ====
section
/-! DEFINITION. The word types of the engine (spec 00_scope R6): a 64-bit word and a byte. -/

namespace Sys2Proof

/-- A 64-bit value: `h1`, `h2`, `total_length`, `k1`, `k2` (00_scope §4, WORD_WIDTH). `+` and `*` on it wrap modulo 2^64,
`<<<` drops the bits past bit 63 and `>>>` fills with zeros, as 00_scope R7 and R8 say. -/
abbrev Word := BitVec 64

/-- One byte of the stream, of a lane or of the tail buffer (00_scope R11). -/
abbrev Byte := BitVec 8

end Sys2Proof
end

