-- ==== Sys2Proof/Config.lean ====
section
/-! DEFINITION. What is fixed for this machine (spec 00_scope §4, 40_mixing_engine R80). The parameters the spec leaves OPEN need no
constant: PARAM_LATENCY because the model is untimed (70 R188), PARAM_INSTANCES because a platform is a list of any length (60 R171). -/

namespace Sys2Proof

/-- The value of PARAM_RESET_SEED, the seed that hardware reset applies, for this hardware: 0 (70_reset_and_hazards R180). A platform may
set another value; what depends on the parameter takes it as an argument (93_implementation_defined I12) and this is the value of the
names that take none: `State.reset`, `step` and `Sys2Proof.core`. -/
def Config.paramResetSeed : BitVec 32 := 0

/-- BLOCK_BYTES (40_mixing_engine R85). -/
abbrev Config.blockBytes : Nat := 16

/-- BEAT_BYTES: the largest LEN an INCLUDE may carry (30_encoding R62). -/
abbrev Config.maxBeatBytes : Nat := 16

/-- TAIL_CAPACITY (10_state R24). -/
abbrev Config.tailCapacity : Nat := 15

/-- The identifying string (00_scope R3). -/
def Config.identifier : String := "MurmurHash3_x64_128"

/-- `C1` of 40_mixing_engine R80. -/
def Config.c1 : Word := 0x87c37b91114253d5
/-- `C2` of 40_mixing_engine R80. -/
def Config.c2 : Word := 0x4cf5ad432745937f
/-- `A1`, the h1 add constant of 40_mixing_engine R80. -/
def Config.a1 : Word := 0x0000000052dce729
/-- `A2`, the h2 add constant of 40_mixing_engine R80. -/
def Config.a2 : Word := 0x0000000038495ab5
/-- `M`, the block multiplier of 40_mixing_engine R80. -/
def Config.m : Word := 5
/-- `F1`, the first multiplier of fmix64 (40_mixing_engine R80). -/
def Config.f1 : Word := 0xff51afd7ed558ccd
/-- `F2`, the second multiplier of fmix64 (40_mixing_engine R80). -/
def Config.f2 : Word := 0xc4ceb9fe1a85ec53

end Sys2Proof
end

