-- ==== Sys2Proof/Syntax.lean ====
section
/-! DEFINITION. The commands of the engine, one constructor per row of spec/opcode_table.json (spec 30_encoding R68, R69, R70). -/

namespace Sys2Proof

/-- A decoded command. Fields that a command ignores (30_encoding R64) are dropped here (93_implementation_defined I8). -/
inductive Instr where
  /-- RESET with its 32-bit SEED field (43_reset R140). -/
  | reset (seed : BitVec 32)
  /-- INCLUDE with its beat `[Lane(0), ..., Lane(LEN-1)]` in stream order (41_include R101); LEN is the beat's length. -/
  | includeBeat (beat : List Byte)
  /-- FINALIZE, which has no operand (42_finalize R120). -/
  | finalize
  /-- The illegal class OP = 00 (30_encoding R70). -/
  | illegalOp0
  /-- The illegal class OP = 10 with LEN in 17..31 (30_encoding R70), with that LEN. -/
  | illegalIncludeLen (len : BitVec 5)
  deriving DecidableEq, Repr

/-- One transfer on the command port: `CMD[39:0]` and `DATA[127:0]`, taken together (30_encoding R60, R71; 70_reset_and_hazards R185). -/
structure PortWord where
  cmd : BitVec 40
  data : BitVec 128
  deriving DecidableEq, Repr

/-- The mnemonic of a command, as spec/opcode_table.json spells it. -/
def Instr.mnemonic : Instr → String
  | .reset _ => "RESET"
  | .includeBeat _ => "INCLUDE"
  | .finalize => "FINALIZE"
  | .illegalOp0 => "ILLEGAL_OP0"
  | .illegalIncludeLen _ => "ILLEGAL_INCLUDE_LEN"

/-- Whether a command is one of the three legal ones (30_encoding R68). -/
def Instr.isLegal : Instr → Bool
  | .reset _ => true
  | .includeBeat _ => true
  | .finalize => true
  | .illegalOp0 => false
  | .illegalIncludeLen _ => false

end Sys2Proof
end

