-- ==== Sys2Proof/WellFormed.lean ====
section
/-! DEFINITION. Which commands a command word can stand for (spec 30_encoding R62, R70). -/

namespace Sys2Proof

/-- A command that some `CMD`/`DATA` pair encodes: a beat has at most 16 bytes (30_encoding R62), an illegal length lies in 17..31
(30_encoding R70). -/
def Instr.wellFormed : Instr → Bool
  | .reset _ => true
  | .includeBeat beat => decide (beat.length ≤ Config.maxBeatBytes)
  | .finalize => true
  | .illegalOp0 => true
  | .illegalIncludeLen len => decide (Config.maxBeatBytes < len.toNat)

end Sys2Proof
end

