-- ==== Sys2Proof/Decode.lean ====
section
/-! DEFINITION. The decoder of a command word and the encoder of a command (spec 30_encoding R61, R63, R68, R69, R73), and the opcode map
in its match/mask form (30_encoding R77). Decoding is total on all 2^40 words: an illegal word decodes to the illegal class it belongs to. -/

namespace Sys2Proof

/-- OP, `CMD[1:0]` (30_encoding R61). -/
def cmdOp (cmd : BitVec 40) : BitVec 2 := cmd.extractLsb' 0 2

/-- LEN, `CMD[6:2]` (30_encoding R61, R62). -/
def cmdLen (cmd : BitVec 40) : BitVec 5 := cmd.extractLsb' 2 5

/-- RSVD, `CMD[7]` (30_encoding R61); no command reads it (R64). -/
def cmdRsvd (cmd : BitVec 40) : BitVec 1 := cmd.extractLsb' 7 1

/-- SEED, `CMD[39:8]` (30_encoding R61, R67). -/
def cmdSeed (cmd : BitVec 40) : BitVec 32 := cmd.extractLsb' 8 32

/-- `Lane(j) = DATA[8j+7:8j]` (30_encoding R63). -/
def lane (data : BitVec 128) (j : Nat) : Byte := data.extractLsb' (8 * j) 8

/-- The beat `[Lane(0), ..., Lane(n-1)]` (30_encoding R69; 20_memory R42). -/
def beatOf (n : Nat) (data : BitVec 128) : List Byte := (List.range n).map (lane data)

/-- `decode(CMD)` of 30_encoding R69, with the beat's lanes read for INCLUDE. -/
def decode (w : PortWord) : Instr :=
  if cmdOp w.cmd = 0b01 then .reset (cmdSeed w.cmd)
  else if cmdOp w.cmd = 0b10 ∧ (cmdLen w.cmd).toNat ≤ Config.maxBeatBytes then .includeBeat (beatOf (cmdLen w.cmd).toNat w.data)
  else if cmdOp w.cmd = 0b11 then .finalize
  else if cmdOp w.cmd = 0b00 then .illegalOp0
  else .illegalIncludeLen (cmdLen w.cmd)

/-- The DATA word of a beat: byte `j` in lane `j`, the lanes above it zero (30_encoding R73). -/
def packLanes : List Byte → BitVec 128
  | [] => 0
  | b :: bs => b.setWidth 128 ||| (packLanes bs <<< 8)

/-- The words of a command, every unused field zero (30_encoding R73). An illegal command has no assembly form; its word has zeros in
the fields its class ignores. -/
def encode : Instr → PortWord
  | .reset seed => { cmd := (seed.setWidth 40 <<< 8) ||| 0b01, data := 0 }
  | .includeBeat beat => { cmd := (BitVec.ofNat 40 beat.length <<< 2) ||| 0b10, data := packLanes beat }
  | .finalize => { cmd := 0b11, data := 0 }
  | .illegalOp0 => { cmd := 0b00, data := 0 }
  | .illegalIncludeLen len => { cmd := (len.setWidth 40 <<< 2) ||| 0b10, data := 0 }

/-- The further conditions of the opcode table's rows (30_encoding R68, R77). -/
inductive OpcodeCondition where
  | none
  | lenAtMost16
  | lowLenBitsNonzero
  deriving DecidableEq, Repr

/-- One row of the opcode map: a mnemonic with `match` and `mask` over `CMD[39:0]` and a further condition (30_encoding R77). -/
structure OpcodeRow where
  mnemonic : String
  pattern : BitVec 40
  mask : BitVec 40
  condition : OpcodeCondition
  deriving DecidableEq, Repr

/-- Whether a command word meets a row's further condition: `LEN <= 16`, or `CMD[5:2] != 0000` (spec/opcode_table.json). -/
def OpcodeCondition.holds (c : OpcodeCondition) (cmd : BitVec 40) : Bool :=
  match c with
  | .none => true
  | .lenAtMost16 => decide ((cmdLen cmd).toNat ≤ 16)
  | .lowLenBitsNonzero => decide (cmd.extractLsb' 2 4 ≠ 0)

/-- Whether a row of the opcode map covers a command word (30_encoding R77). -/
def OpcodeRow.covers (r : OpcodeRow) (cmd : BitVec 40) : Bool :=
  decide (cmd &&& r.mask = r.pattern) && r.condition.holds cmd

/-- The opcode map, row for row as spec/opcode_table.json gives it (30_encoding R77). -/
def opcodeMap : List OpcodeRow :=
  [ { mnemonic := "RESET", pattern := 0x0000000001, mask := 0x0000000003, condition := .none },
    { mnemonic := "INCLUDE", pattern := 0x0000000002, mask := 0x0000000003, condition := .lenAtMost16 },
    { mnemonic := "FINALIZE", pattern := 0x0000000003, mask := 0x0000000003, condition := .none },
    { mnemonic := "ILLEGAL_OP0", pattern := 0x0000000000, mask := 0x0000000003, condition := .none },
    { mnemonic := "ILLEGAL_INCLUDE_LEN", pattern := 0x0000000042, mask := 0x0000000043, condition := .lowLenBitsNonzero } ]

/-- The port transfer whose bits are `w`, of which the lowest `nbits` count and the rest are zero: `CMD` in bits 39..0, as the opcode
table numbers them, and `DATA` in the bits above. -/
def portWordOfBits (nbits w : Nat) : PortWord :=
  { cmd := BitVec.ofNat 40 (w % 2 ^ nbits), data := BitVec.ofNat 128 (w % 2 ^ nbits / 2 ^ 40) }

/-- The command the decoder reads from the bits `w`; no word is refused (30_encoding R69). -/
def decodeTableWord (nbits w : Nat) : Option Instr := some (decode (portWordOfBits nbits w))

end Sys2Proof
end

