-- ==== Sys2Proof/Machine/State.lean ====
section
/-! DEFINITION. The state of the machine: the engine's own state as spec 10_state gives it, and the two ports as the model holds them. -/

namespace Sys2Proof.Machine

/-- The lifecycle phase (10_state R28). -/
inductive Phase where
  | fresh
  | accumulating
  | finalized
  deriving DecidableEq, Repr

/-- The status of a response (30_encoding R65; 60_exceptions R160). -/
inductive Status where
  | ok
  | invalidArgument
  deriving DecidableEq, Repr

/-- The digest of a FINALIZE response, two 64-bit words (42_finalize R127; 30_encoding R66). -/
structure Digest where
  h1final : Word
  h2final : Word
  deriving DecidableEq, Repr

/-- What the host observes of one command: its response, and the output `PHASE` after the command (30_encoding R65, R66;
70_reset_and_hazards R190). A response without a defined digest carries `none`. -/
structure Response where
  status : Status
  digest : Option Digest
  phase : Phase
  deriving DecidableEq, Repr

/-- What the host does at the ports (30_encoding R60; 70_reset_and_hazards R189). -/
inductive HostEvent where
  /-- A command is presented with its DATA word (30_encoding R60). -/
  | command (w : PortWord)
  /-- `RST` is asserted (70_reset_and_hazards R180), while the given command, if any, is in progress (R181). -/
  | rst (inProgress : Option PortWord)
  deriving DecidableEq, Repr

/-- The engine's architectural state, the record `st` of 00_scope R14. `tail` lists the valid bytes of the tail buffer, oldest first;
its length is `tail_len` (10_state R24 to R26). -/
structure HashState where
  h1 : Word
  h2 : Word
  totalLength : Word
  tail : List Byte
  phase : Phase
  deriving DecidableEq, Repr

/-- The machine: the engine's state `st`, the events standing on its input ports, next first, and the responses it has delivered,
oldest first. `pending` and `responses` are the model's own fields (DESIGN CHOICE, log entry 1): the spec does not count them as
engine state (10_state R32). -/
structure State where
  st : HashState
  pending : List HostEvent
  responses : List Response
  deriving DecidableEq, Repr

/-- The reasons a run could stop with a fault. There is none: the engine's only error is a response (60_exceptions R161, R163), so no
definition raises a fault and the type has no constructor. -/
inductive Fault where
  deriving DecidableEq, Repr

/-- The reasons a command could be refused. -/
inductive Refusal where
  /-- An instruction that has no meaning yet; safe. No arm of `exec` raises it: every command has its meaning. -/
  | notModelled (mnemonic : String)
  deriving DecidableEq, Repr

/-- The machine right after hardware reset on a platform whose PARAM_RESET_SEED is the argument (10_state R33; 70_reset_and_hazards R180):
both accumulators `sext_64(PARAM_RESET_SEED)`, nothing counted, no valid tail byte, phase FRESH; nothing presented yet and no response
delivered. -/
def State.resetWith (paramResetSeed : BitVec 32) : State :=
  { st :=
      { h1 := paramResetSeed.signExtend 64
        h2 := paramResetSeed.signExtend 64
        totalLength := 0
        tail := []
        phase := .fresh }
    pending := []
    responses := [] }

/-- The machine right after hardware reset with this hardware's PARAM_RESET_SEED (70_reset_and_hazards R180). -/
def State.reset : State := State.resetWith Config.paramResetSeed

end Sys2Proof.Machine
end

