-- ==== Sys2Proof/Machine/Flags.lean ====
section
/-! DEFINITION. The status register and the status codes as the ports drive them. The engine has no condition flag (spec 10_state R30). -/

namespace Sys2Proof.Machine

/-- The encoding of `phase`, as `PHASE[1:0]` shows it (10_state R28). -/
def Phase.code : Phase → BitVec 2
  | .fresh => 0b00
  | .accumulating => 0b01
  | .finalized => 0b10

/-- The encoding of a status on `RSP_STATUS[1:0]` (30_encoding R65); 1 is also the error's cause code (60_exceptions R160). -/
def Status.code : Status → BitVec 2
  | .ok => 0b00
  | .invalidArgument => 0b01

/-- The output `PHASE[1:0]`, always driven (10_state R28; 30_encoding R60). -/
def State.phaseOut (s : State) : BitVec 2 := s.st.phase.code

/-- `tail_len`, the number of valid tail bytes (10_state R25; 00_scope R14). -/
def HashState.tailLen (st : HashState) : Nat := st.tail.length

/-- The digest as one 128-bit value, `h2final` the more significant word (42_finalize R127). -/
def Digest.value (d : Digest) : BitVec 128 := d.h2final ++ d.h1final

end Sys2Proof.Machine
end

