-- ==== Sys2Proof/Machine/Operands.lean ====
section
/-! DEFINITION. The operand forms: widening, rotation and little-endian word extraction (spec 00_scope R9, R10, R12). -/

namespace Sys2Proof.Machine

/-- `sext_64` of 00_scope R10, the widening of a seed (43_reset R141). -/
def sext64 (v : BitVec 32) : Word := v.signExtend 64

/-- `zext_64` of a byte (00_scope R10). -/
def zext64 (b : Byte) : Word := b.setWidth 64

/-- The byte count of a beat as the 64-bit value INCLUDE adds (41_include R103). -/
def beatCount (beat : List Byte) : Word := BitVec.ofNat 64 beat.length

/-- `rotl64(x, r)` for `0 < r < 64` (00_scope R9). -/
def rotl64 (x : Word) (r : Nat) : Word := (x <<< r) ||| (x >>> (64 - r))

/-- The terms `S[0] << 8*i | S[1] << 8*(i+1) | ...` of `LE64`, from byte position `i` on (00_scope R12). -/
def le64From (i : Nat) : List Byte → Word
  | [] => 0
  | b :: bs => (zext64 b <<< (8 * i)) ||| le64From (i + 1) bs

/-- `LE64(S)` for a sequence of at most 8 bytes: byte `j` at bits `8j+7:8j`, zero above (00_scope R12). -/
def le64 (bytes : List Byte) : Word := le64From 0 bytes

end Sys2Proof.Machine
end

