-- ==== Sys2Proof/Machine/Mixing.lean ====
section
/-! DEFINITION. The mixing datapath: key mixing, the block step and the final avalanche (spec 40_mixing_engine R81 to R88). -/

namespace Sys2Proof.Machine

/-- `mixK1(k)` (40_mixing_engine R81). -/
def mixK1 (k : Word) : Word := rotl64 (k * Config.c1) 31 * Config.c2

/-- `mixK2(k)` (40_mixing_engine R82). -/
def mixK2 (k : Word) : Word := rotl64 (k * Config.c2) 33 * Config.c1

/-- Step 1 of BlockMix, the new `h1` from the old `h1`, the old `h2` and the key `k1` (40_mixing_engine R86). -/
def mixH1 (h1 h2 k1 : Word) : Word := (rotl64 (h1 ^^^ mixK1 k1) 27 + h2) * Config.m + Config.a1

/-- Step 2 of BlockMix, the new `h2` from the NEW `h1`, the old `h2` and the key `k2` (40_mixing_engine R86). -/
def mixH2 (newH1 h2 k2 : Word) : Word := (rotl64 (h2 ^^^ mixK2 k2) 31 + newH1) * Config.m + Config.a2

/-- The accumulators `(h1, h2)` (10_state R20). -/
structure Accumulators where
  h1 : Word
  h2 : Word
  deriving DecidableEq, Repr

/-- `BlockMix(h1, h2, B)` for a 16-byte block (40_mixing_engine R84, R86): the keys are the block's two little-endian words (20_memory R43). -/
def blockMix (h : Accumulators) (block : List Byte) : Accumulators :=
  let newH1 := mixH1 h.h1 h.h2 (le64 (block.take 8))
  { h1 := newH1, h2 := mixH2 newH1 h.h2 (le64 ((block.drop 8).take 8)) }

/-- BlockMix over the first `blocks` blocks of a byte sequence, in stream order (40_mixing_engine R87). -/
def blockMixStarFrom : (blocks : Nat) → Accumulators → List Byte → Accumulators
  | 0, h, _ => h
  | blocks + 1, h, bytes =>
    blockMixStarFrom blocks (blockMix h (bytes.take Config.blockBytes)) (bytes.drop Config.blockBytes)

/-- `BlockMix*(h1, h2, S)` over the complete blocks of `S` (40_mixing_engine R87). -/
def blockMixStar (h : Accumulators) (bytes : List Byte) : Accumulators :=
  blockMixStarFrom (bytes.length / Config.blockBytes) h bytes

/-- The step `k ^ (k >> 33)` of fmix64, with a logical shift (40_mixing_engine R88; 00_scope R8). -/
def xorShift33 (k : Word) : Word := k ^^^ (k >>> 33)

/-- `fmix64(k)` (40_mixing_engine R88). -/
def fmix64 (k : Word) : Word := xorShift33 (xorShift33 (xorShift33 k * Config.f1) * Config.f2)

end Sys2Proof.Machine
end

