-- ==== Sys2Proof/Machine/Ops.lean ====
section
/-! DEFINITION. The shared operations: answering a command, the invalid-argument error, the parts of INCLUDE and FINALIZE that the spec
names, and the two port events (spec 00_scope R13; 41_include R102, R105 to R107; 60_exceptions R161; 70_reset_and_hazards R180). -/

namespace Sys2Proof.Machine

/-- `respond(status, digest)` (00_scope R13): exactly one response, after all earlier ones (20_memory R46), with the `PHASE` the command
leaves (70_reset_and_hazards R190). -/
def respond (status : Status) (digest : Option Digest) (s : State) : State :=
  { s with responses := s.responses ++ [{ status := status, digest := digest, phase := s.st.phase }] }

/-- A legal command: its new engine state takes effect as a whole (20_memory R47), then the OK response is delivered. -/
def complete (st : HashState) (digest : Option Digest) (s : State) : State :=
  respond .ok digest { s with st := st }

/-- `raise InvalidArgument()`, the engine's one exception (00_scope R13; 60_exceptions R161): the response INVALID_ARGUMENT, with no
digest and no state write. Nothing is saved and control goes nowhere (60_exceptions R167), so there is no return (R168). -/
def raiseInvalidArgument (s : State) : State := respond .invalidArgument none s

/-! ### RESET -/

/-- The engine's state after `RESET seed` (43_reset R140, R141). -/
def seededState (seed : BitVec 32) : HashState :=
  { h1 := sext64 seed, h2 := sext64 seed, totalLength := 0, tail := [], phase := .fresh }

/-! ### INCLUDE: block boundary handler and tail buffer mux -/

/-- `completes`: whether a beat of `n` bytes completes a block when `t` bytes are pending (41_include R102). -/
def completesBlock (t n : Nat) : Bool := decide (Config.blockBytes ≤ t + n)

/-- `split = 16 - t`: how many bytes of a completing beat go into the block (41_include R102). -/
def splitPoint (t : Nat) : Nat := Config.blockBytes - t

/-- The block a completing beat makes: the pending tail bytes, then the beat's first lanes (41_include R105). -/
def assembleBlock (tail beat : List Byte) : List Byte := tail ++ beat.take (splitPoint tail.length)

/-- Refill path: the lanes after the split are the new tail (41_include R107). -/
def refillTail (tail beat : List Byte) : List Byte := beat.drop (splitPoint tail.length)

/-- Append path: the beat's bytes follow the pending ones (41_include R106). -/
def appendTail (tail beat : List Byte) : List Byte := tail ++ beat

/-- The accumulators of an engine state (10_state R20). -/
def HashState.accumulators (st : HashState) : Accumulators := { h1 := st.h1, h2 := st.h2 }

/-- The engine's state after an INCLUDE of a beat (41_include R101). -/
def includeState (beat : List Byte) (st : HashState) : HashState :=
  if completesBlock st.tailLen beat.length then
    let h := blockMix st.accumulators (assembleBlock st.tail beat)
    { h1 := h.h1, h2 := h.h2, totalLength := st.totalLength + beatCount beat, tail := refillTail st.tail beat, phase := .accumulating }
  else
    { st with totalLength := st.totalLength + beatCount beat, tail := appendTail st.tail beat, phase := .accumulating }

/-! ### FINALIZE: tail packing and final mixing -/

/-- The key words `(k1, k2)` that the tail is packed into (42_finalize R121). -/
structure TailKeys where
  k1 : Word
  k2 : Word
  deriving DecidableEq, Repr

/-- One turn of the packing loop: tail byte `i` is XORed into its field of `k1` (`i < 8`) or `k2` (42_finalize R121, byte 7 at bits 63:56). -/
def packByte (k : TailKeys) (byteAt : Byte × Nat) : TailKeys :=
  if 8 ≤ byteAt.2 then { k with k2 := k.k2 ^^^ (zext64 byteAt.1 <<< (8 * (byteAt.2 - 8))) }
  else { k with k1 := k.k1 ^^^ (zext64 byteAt.1 <<< (8 * byteAt.2)) }

/-- Tail packing: the loop of 42_finalize R121 over the valid tail bytes, from `k1 = k2 = 0`. -/
def packTail (tail : List Byte) : TailKeys := tail.zipIdx.foldl packByte { k1 := 0, k2 := 0 }

/-- Tail mixing: `k2` only from nine tail bytes on, `k1` from one on (42_finalize R123, R124). -/
def mixTail (h : Accumulators) (tail : List Byte) : Accumulators :=
  let k := packTail tail
  { h1 := if 1 ≤ tail.length then h.h1 ^^^ mixK1 k.k1 else h.h1
    h2 := if 9 ≤ tail.length then h.h2 ^^^ mixK2 k.k2 else h.h2 }

/-- The pair of cross-additions `x1 += x2; x2 += x1`, the second reading the new `x1` (42_finalize R125). -/
def crossAdd (x : Accumulators) : Accumulators := { h1 := x.h1 + x.h2, h2 := x.h2 + (x.h1 + x.h2) }

/-- Length mixing and avalanche (42_finalize R125). -/
def mixLength (x : Accumulators) (totalLength : Word) : Accumulators :=
  let y := crossAdd { h1 := x.h1 ^^^ totalLength, h2 := x.h2 ^^^ totalLength }
  crossAdd { h1 := fmix64 y.h1, h2 := fmix64 y.h2 }

/-- `FinalDigest(h1, h2, tail, total_length)`, on local copies of the accumulators (42_finalize R126, R127). -/
def finalDigest (h : Accumulators) (tail : List Byte) (totalLength : Word) : Digest :=
  let x := mixLength (mixTail h tail) totalLength
  { h1final := x.h1, h2final := x.h2 }

/-- The digest that FINALIZE returns in an engine state (42_finalize R120). -/
def HashState.digest (st : HashState) : Digest := finalDigest st.accumulators st.tail st.totalLength

/-- The engine's state after FINALIZE: only `phase` is written (42_finalize R120, R128). -/
def finalizeState (st : HashState) : HashState := { st with phase := .finalized }

/-! ### The ports -/

/-- The next event on the input ports, and the machine once the engine has taken it; `none` where nothing is presented. Commands are
taken one at a time, in the order presented (20_memory R46). -/
def nextEvent (s : State) : Option (HostEvent × State) :=
  match s.pending with
  | [] => none
  | e :: rest => some (e, { s with pending := rest })

/-- Hardware reset on a platform whose PARAM_RESET_SEED is the first argument (70_reset_and_hazards R180): every element of the engine's
state at its reset value, and no response. A command in progress leaves no trace and gets no response (R181). -/
def hardwareReset (paramResetSeed : BitVec 32) (s : State) : State := { s with st := seededState paramResetSeed }

/-- A command presented ahead of whatever stands on the port. -/
def presentCommand (w : PortWord) (s : State) : State := { s with pending := .command w :: s.pending }

end Sys2Proof.Machine
end

