-- ==== Sys2Proof/Machine/Finalize.lean ====
section
/-! DEFINITION. The meaning of FINALIZE (spec 42_finalize). -/

namespace Sys2Proof.Machine

/-- FINALIZE (42_finalize R120): the digest of the state before it, in the OK response; only `phase` is written. -/
def execFinalize (s : State) : Host.Outcome State Fault Refusal :=
  .next (complete (finalizeState s.st) (some s.st.digest) s)

end Sys2Proof.Machine
end

