-- ==== Sys2Proof/Machine/Illegal.lean ====
section
/-! DEFINITION. The meanings of the two illegal classes (spec 30_encoding R70, 60_exceptions R161). -/

namespace Sys2Proof.Machine

/-- OP = 00 (30_encoding R70): the invalid-argument error is raised. -/
def execIllegalOp0 (s : State) : Host.Outcome State Fault Refusal := .next (raiseInvalidArgument s)

/-- OP = 10 with LEN in 17..31 (30_encoding R70): the invalid-argument error is raised, whatever the length (60_exceptions R161). -/
def execIllegalIncludeLen (_len : BitVec 5) (s : State) : Host.Outcome State Fault Refusal := .next (raiseInvalidArgument s)

end Sys2Proof.Machine
end

