-- ==== Sys2Proof/Machine/Include.lean ====
section
/-! DEFINITION. The meaning of INCLUDE (spec 41_include). -/

namespace Sys2Proof.Machine

/-- INCLUDE (41_include R101): the beat joins the stream, and the response is OK without a digest. -/
def execIncludeBeat (beat : List Byte) (s : State) : Host.Outcome State Fault Refusal :=
  .next (complete (includeState beat s.st) none s)

end Sys2Proof.Machine
end

