-- ==== Sys2Proof/Machine/Reset.lean ====
section
/-! DEFINITION. The meaning of RESET (spec 43_reset). -/

namespace Sys2Proof.Machine

/-- RESET (43_reset R140): the engine's state is the seeded one, whatever it was, and the response is OK. -/
def execReset (seed : BitVec 32) (s : State) : Host.Outcome State Fault Refusal :=
  .next (complete (seededState seed) none s)

end Sys2Proof.Machine
end

