-- ==== Sys2Proof/Machine/Dispatch.lean ====
section
/-! DEFINITION. One arm per command (spec 30_encoding R69, `step`). -/

namespace Sys2Proof.Machine

def exec (i : Instr) (s : State) : Host.Outcome State Fault Refusal :=
  match i with
  | .reset seed => Sys2Proof.Machine.execReset seed s
  | .includeBeat beat => Sys2Proof.Machine.execIncludeBeat beat s
  | .finalize => Sys2Proof.Machine.execFinalize s
  | .illegalOp0 => Sys2Proof.Machine.execIllegalOp0 s
  | .illegalIncludeLen len => Sys2Proof.Machine.execIllegalIncludeLen len s

end Sys2Proof.Machine
end

