-- ==== Sys2Proof/Machine/Step.lean ====
section
/-! DEFINITION. One step of the machine: the engine takes the next event on its input ports (spec 30_encoding R69, 20_memory R46). -/

namespace Sys2Proof.Machine

/-- One step on a platform whose PARAM_RESET_SEED is the first argument (70_reset_and_hazards R180): a presented command is decoded and executed (30_encoding R69), an assertion of `RST` is hardware reset
(70_reset_and_hazards R180, R181), and with nothing presented the engine keeps its state (60_exceptions R173). -/
def stepWith (paramResetSeed : BitVec 32) (s : State) : Host.Outcome State Fault Refusal :=
  match nextEvent s with
  | none => .next s
  | some (.command w, taken) => exec (decode w) taken
  | some (.rst _, taken) => .next (hardwareReset paramResetSeed taken)

/-- One step of this hardware, whose PARAM_RESET_SEED is 0 (70_reset_and_hazards R180). -/
def step (s : State) : Host.Outcome State Fault Refusal := stepWith Config.paramResetSeed s

/-- `s` with the command whose bits are `w` presented next, so that the next step decodes and executes it (log entry 2). -/
def State.withFetchWord (s : State) (nbits w : Nat) : State := presentCommand (portWordOfBits nbits w) s

end Sys2Proof.Machine
end

