-- ==== Sys2Proof/Machine/Platform.lean ====
section
/-! DEFINITION. What a platform decides: the seed of hardware reset (spec 70_reset_and_hazards R180) and how many engines there are, each
with its own state and its own ports (60_exceptions R171). -/

namespace Sys2Proof.Machine

/-- The machine of a platform whose PARAM_RESET_SEED is the argument (70_reset_and_hazards R180; 93_implementation_defined I12).
`Sys2Proof.core` is this machine for the value 0. -/
def coreWith (paramResetSeed : BitVec 32) : Host.Core :=
  { State := State, Fault := Fault, Refusal := Refusal, step := stepWith paramResetSeed, reset := State.resetWith paramResetSeed }

/-- A platform: its instances, as many as there are (PARAM_INSTANCES is OPEN, 60_exceptions R171). -/
abbrev Platform := List State

/-- A platform of `count` instances, each starting out of hardware reset (60_exceptions R171). -/
def Platform.reset (paramResetSeed : BitVec 32) (count : Nat) : Platform := List.replicate count (State.resetWith paramResetSeed)

/-- One step of instance `k`, the others untouched: they share no state and no signal (60_exceptions R171). Where there is no instance
`k` there is nothing to step (log entry 7). -/
def stepInstance (paramResetSeed : BitVec 32) (k : Nat) (p : Platform) : Host.Outcome Platform Fault Refusal :=
  match p[k]? with
  | none => .next p
  | some s =>
    match stepWith paramResetSeed s with
    | .next s' => .next (p.set k s')
    | .fault r => .fault r
    | .refused r => .refused r

end Sys2Proof.Machine
end

