-- ==== Sys2Proof/Machine/Assembler.lean ====
section
/-! DEFINITION. The assembler and the pseudo-instructions (spec 30_encoding R72 to R76). They stand at the host's side of the command
port: they say which command words a line of assembly or a pseudo-instruction stands for. -/

namespace Sys2Proof.Machine

/-! ### Pseudo-instructions -/

/-- The first `k` beats of a byte sequence: 16 bytes each, the last with what remains (30_encoding R74). -/
def beatsFrom : (k : Nat) → List Byte → List (List Byte)
  | 0, _ => []
  | k + 1, bytes => bytes.take Config.maxBeatBytes :: beatsFrom k (bytes.drop Config.maxBeatBytes)

/-- The `ceil(len(S)/16)` beats of `S` (30_encoding R74); none for the empty sequence. -/
def streamBeats (bytes : List Byte) : List (List Byte) := beatsFrom ((bytes.length + 15) / Config.maxBeatBytes) bytes

/-- `INCLUDE_STREAM S` (30_encoding R74). -/
def includeStream (bytes : List Byte) : List Instr := (streamBeats bytes).map .includeBeat

/-- `CREATE_HASHER seed` (30_encoding R75). -/
def createHasher (seed : BitVec 32) : List Instr := [.reset seed]

/-- `HASH_ONESHOT S, seed`, the seed 0 where it is left out (30_encoding R76). -/
def hashOneShot (bytes : List Byte) (seed : BitVec 32 := 0) : List Instr := .reset seed :: includeStream bytes ++ [.finalize]

/-! ### One line of assembly -/

/-- A seed as it is written: signed decimal or hexadecimal (30_encoding R72). -/
inductive SeedLiteral where
  | dec (v : Int)
  | hex (v : Nat)
  deriving DecidableEq, Repr

/-- One line of assembly (30_encoding R72). The text of `INCLUDE "<text>"` is given as its character codes. -/
inductive AsmLine where
  | reset (seed : SeedLiteral)
  | includeBytes (bytes : List Byte)
  | includeText (codes : List Nat)
  | finalize
  deriving DecidableEq, Repr

/-- The SEED field of a written seed: -2147483648..2147483647 taken modulo 2^32, or 32-bit hex; other numbers are no seed (30_encoding R72). -/
def SeedLiteral.field : SeedLiteral → Option (BitVec 32)
  | .dec v => if -2147483648 ≤ v ∧ v ≤ 2147483647 then some (BitVec.ofInt 32 v) else none
  | .hex v => if v < 2 ^ 32 then some (BitVec.ofNat 32 v) else none

/-- A beat as it is written: more than 16 bytes is an assembly error (30_encoding R73). -/
def beatInstr (bytes : List Byte) : Option Instr :=
  if bytes.length ≤ Config.maxBeatBytes then some (.includeBeat bytes) else none

/-- The command of a line, or `none` for an assembly error (30_encoding R72, R73). A text holds ASCII characters, one byte each. -/
def AsmLine.instr : AsmLine → Option Instr
  | .reset seed => seed.field.map .reset
  | .includeBytes bytes => beatInstr bytes
  | .includeText codes => if codes.all (fun c => decide (c < 128)) then beatInstr (codes.map (BitVec.ofNat 8)) else none
  | .finalize => some .finalize

/-- The words a line assembles to (30_encoding R73). -/
def assemble (line : AsmLine) : Option PortWord := line.instr.map encode

/-! ### The text of a line -/

/-- A blank between words (DESIGN CHOICE, log entry 6). -/
def isBlank (c : Char) : Bool := decide (c = ' ') || decide (c = '\t')

/-- A text without the blanks at its start. -/
def dropBlanks (text : List Char) : List Char := text.dropWhile isBlank

/-- A text without the blanks at both ends. -/
def trimBlanks (text : List Char) : List Char := (dropBlanks (dropBlanks text).reverse).reverse

/-- A line without its comment: `;` starts one (30_encoding R72), except between double quotes (DESIGN CHOICE, log entry 6). -/
def dropComment : (quoted : Bool) → List Char → List Char
  | _, [] => []
  | quoted, c :: cs =>
    if c = ';' ∧ quoted = false then [] else c :: dropComment (if c = '"' then !quoted else quoted) cs

/-- The pieces of a text between its commas. -/
def splitCommas : List Char → List (List Char)
  | [] => [[]]
  | c :: cs =>
    match splitCommas cs with
    | [] => [[c]]
    | piece :: pieces => if c = ',' then [] :: piece :: pieces else (c :: piece) :: pieces

/-- The value of a digit in a base of at most 16. -/
def digitValue (base : Nat) (c : Char) : Option Nat :=
  let code := c.toNat
  let v :=
    if 48 ≤ code ∧ code ≤ 57 then some (code - 48)
    else if 97 ≤ code ∧ code ≤ 102 then some (code - 87)
    else if 65 ≤ code ∧ code ≤ 70 then some (code - 55)
    else none
  v.filter (fun d => decide (d < base))

/-- The number that a text's digits continue, after the digits already read gave `acc`. -/
def digitsFrom (base : Nat) : (acc : Nat) → List Char → Option Nat
  | acc, [] => some acc
  | acc, c :: cs => (digitValue base c).bind (fun d => digitsFrom base (acc * base + d) cs)

/-- The number of a text of at least one digit. -/
def parseDigits (base : Nat) (text : List Char) : Option Nat := if text = [] then none else digitsFrom base 0 text

/-- A number written in hexadecimal with its `0x`. -/
def parseHex : List Char → Option Nat
  | '0' :: 'x' :: digits => parseDigits 16 digits
  | _ => none

/-- A seed as R72 writes it. -/
def parseSeed (text : List Char) : Option SeedLiteral :=
  match text with
  | '-' :: digits => (parseDigits 10 digits).map (fun v => .dec (-(v : Int)))
  | _ => match parseHex text with
    | some v => some (.hex v)
    | none => (parseDigits 10 text).map (fun v => .dec (v : Int))

/-- One byte of a beat, `0x00..0xff` (30_encoding R72). -/
def parseByte (text : List Char) : Option Byte :=
  (parseHex (trimBlanks text)).bind (fun v => if v < 256 then some (BitVec.ofNat 8 v) else none)

/-- The bytes of `[b0, b1, ...]`, the brackets taken off; nothing between them is the empty beat. -/
def parseBytes (inside : List Char) : Option (List Byte) :=
  if trimBlanks inside = [] then some [] else (splitCommas inside).mapM parseByte

/-- The operand of an INCLUDE line (30_encoding R72). -/
def parseBeat (text : List Char) : Option AsmLine :=
  match text, text.reverse with
  | '[' :: rest, ']' :: _ => (parseBytes rest.dropLast).map .includeBytes
  | '"' :: rest, '"' :: _ =>
    if rest ≠ [] ∧ '"' ∉ rest.dropLast then some (.includeText (rest.dropLast.map Char.toNat)) else none
  | _, _ => none

/-- The word RESET as characters. -/
def resetWord : List Char := ['R', 'E', 'S', 'E', 'T']
/-- The word INCLUDE as characters. -/
def includeWord : List Char := ['I', 'N', 'C', 'L', 'U', 'D', 'E']
/-- The word FINALIZE as characters. -/
def finalizeWord : List Char := ['F', 'I', 'N', 'A', 'L', 'I', 'Z', 'E']

/-- What a line of text says: `none` is a syntax error, `some none` a line with no command (30_encoding R72). -/
def parseLine (text : List Char) : Option (Option AsmLine) :=
  let line := trimBlanks (dropComment false text)
  let word := line.takeWhile (fun c => c.isAlpha)
  let operand := dropBlanks (line.dropWhile (fun c => c.isAlpha))
  if line = [] then some none
  else if word = resetWord then (parseSeed operand).map (fun seed => some (.reset seed))
  else if word = includeWord then (parseBeat operand).map some
  else if word = finalizeWord ∧ operand = [] then some (some .finalize)
  else none

/-- The words that a program's lines assemble to, one command a line, in order; `none` where a line is in error (30_encoding R72, R73). -/
def assembleText (lines : List (List Char)) : Option (List PortWord) :=
  match lines with
  | [] => some []
  | l :: ls =>
    match parseLine l with
    | none => none
    | some none => assembleText ls
    | some (some line) => (assemble line).bind (fun w => (assembleText ls).map (w :: ·))

end Sys2Proof.Machine
end

