-- ==== Sys2Proof/Safety.lean ====
section
/-! DEFINITION. The terms in which claims speak of runs: the machine's invariant, the stream a state stands for, sequences of commands,
and what a host observes (spec 10_state R25, R27; 41_include R110, R111; 70_reset_and_hazards R190). -/

namespace Sys2Proof.Machine

/-! ### The invariant -/

/-- What every response satisfies: a digest stands only in the OK response of a FINALIZE, which leaves the phase FINALIZED
(30_encoding R66; 10_state R29). -/
def Response.wellFormed (r : Response) : Bool :=
  r.digest.isNone || (decide (r.status = .ok) && decide (r.phase = .finalized))

/-- The invariant of the engine's state that holds whatever the stream was: `tail_len` in 0..15 (10_state R25), and
`tail_len = total_length mod 16` also after the counter wraps (10_state R27). -/
abbrev HashState.Inv (st : HashState) : Prop :=
  st.tailLen ≤ Config.tailCapacity ∧ st.tailLen = st.totalLength.toNat % Config.blockBytes

/-- The invariant of the machine: that of the engine's state, and every delivered response as R66 says. -/
abbrev State.Inv (s : State) : Prop := s.st.Inv ∧ ∀ r ∈ s.responses, r.wellFormed = true

/-! ### The stream a state stands for -/

/-- The seed in force and the bytes included since the last reset (00_scope R15, "stream"). It is no state of the machine: claims carry
it beside the state. -/
structure ByteStream where
  seed : BitVec 32
  bytes : List Byte
  deriving DecidableEq, Repr

/-- The stream after one more command (00_scope R15): RESET starts a new one, INCLUDE extends it, nothing else touches it. -/
def ByteStream.after (x : ByteStream) : Instr → ByteStream
  | .reset seed => { seed := seed, bytes := [] }
  | .includeBeat beat => { x with bytes := x.bytes ++ beat }
  | .finalize => x
  | .illegalOp0 => x
  | .illegalIncludeLen _ => x

/-- The accumulators that a seed starts from (43_reset R141). -/
def seedAccumulators (seed : BitVec 32) : Accumulators := { h1 := sext64 seed, h2 := sext64 seed }

/-- The engine's state that 10_state R27 gives for a stream, computed from the whole stream at once. -/
def streamState (x : ByteStream) (phase : Phase) : HashState :=
  let h := blockMixStar (seedAccumulators x.seed) x.bytes
  { h1 := h.h1
    h2 := h.h2
    totalLength := BitVec.ofNat 64 x.bytes.length
    tail := x.bytes.drop (Config.blockBytes * (x.bytes.length / Config.blockBytes))
    phase := phase }

/-- The stream invariant (10_state R27): the engine's state is the one the stream gives, in some phase. -/
def HashState.Represents (st : HashState) (x : ByteStream) : Prop := st = streamState x st.phase

/-- The digest of a stream, computed from the whole stream at once: the source's one-call result (00_scope R4; 42_finalize R126). -/
def ByteStream.digest (x : ByteStream) : Digest := (streamState x .fresh).digest

/-- Two engine states that agree in everything but `phase`. -/
abbrev HashState.AgreeButPhase (a b : HashState) : Prop :=
  a.h1 = b.h1 ∧ a.h2 = b.h2 ∧ a.totalLength = b.totalLength ∧ a.tail = b.tail

/-! ### Sequences of commands -/

/-- The machine after a sequence of commands executed in order (20_memory R50). -/
def execAll : List Instr → State → Host.Outcome State Fault Refusal
  | [], s => .next s
  | i :: is, s =>
    match exec i s with
    | .next s' => execAll is s'
    | .fault r => .fault r
    | .refused r => .refused r

/-- `Absorb(st, S)`: the engine's state after `INCLUDE_STREAM S` (41_include R111). -/
def absorb (st : HashState) (bytes : List Byte) : HashState :=
  (streamBeats bytes).foldl (fun st beat => includeState beat st) st

/-- Commands that leave the stream as it is (42_finalize R129): all but RESET and an INCLUDE of LEN > 0. -/
def keepsStream : Instr → Bool
  | .reset _ => false
  | .includeBeat beat => beat.isEmpty
  | .finalize => true
  | .illegalOp0 => true
  | .illegalIncludeLen _ => true

/-! ### Runs and what the host observes -/

/-- What a host reads of one response on the ports: `RSP_STATUS` and, in a FINALIZE OK response only, the digest (70_reset_and_hazards R190). -/
def Response.reply (r : Response) : Status × Option Digest := (r.status, r.digest)

/-- The observation of a run that started when `start` responses had been delivered: each later response, with `PHASE` after its
command (70_reset_and_hazards R190). -/
def State.observation (start : Nat) (s : State) : List (BitVec 2 × Option Digest × BitVec 2) :=
  (s.responses.drop start).map (fun r => (r.status.code, r.digest, r.phase.code))

/-- A state that a run may start from: hardware reset's, for some platform's PARAM_RESET_SEED, or one that a stream gives
(70_reset_and_hazards R180, R190). -/
def State.IsRunStart (s : State) : Prop := (∃ paramResetSeed, s.st = (State.resetWith paramResetSeed).st) ∨ ∃ x : ByteStream, s.st.Represents x

/-- Commands presented on the port, as events. -/
def presented (ws : List PortWord) : List HostEvent := ws.map .command

/-- How many of the events on the port are commands; the others are assertions of `RST`. -/
def commandCount (events : List HostEvent) : Nat :=
  events.countP (fun e => match e with | .command _ => true | .rst _ => false)

end Sys2Proof.Machine
end

