-- ==== Sys2Proof/Certificates/Slice0/Obligations.lean ====
section
/-! DEFINITION. The statements for the provers. Each docstring names the rules of spec/ it formalises; OBLIGATIONS.json says which of
them it states whole. -/

open Sys2Proof Sys2Proof.Machine

/-! ### The commands -/

/-- RESET (43_reset R140, R141, R143): a word with OP = 01 is RESET with SEED = CMD[39:8]; whatever the state, RESET answers OK and
leaves both accumulators the sign-extended seed, the count 0, no tail byte and FRESH, and nothing else changes. -/
def Obligations.ResetReinitialisesFromSeed : Prop :=
  (∀ w : PortWord, w.cmd.extractLsb' 0 2 = 0b01 → decode w = .reset (w.cmd.extractLsb' 8 32)) ∧
  ∀ (seed : BitVec 32) (s : State),
    exec (.reset seed) s =
      .next { st := { h1 := seed.signExtend 64, h2 := seed.signExtend 64, totalLength := 0, tail := [], phase := .fresh }
              pending := s.pending
              responses := s.responses ++ [{ status := .ok, digest := none, phase := .fresh }] }

/-- Seed widening (43_reset R141): both accumulators copy bit 31 of the seed into bits 63..32. -/
def Obligations.SeedWideningCopiesBit31 : Prop :=
  ∀ (seed : BitVec 32) (s : State), ∃ s', exec (.reset seed) s = .next s' ∧
    ∀ k < 64, s'.st.h1.getLsbD k = seed.getLsbD (min k 31) ∧ s'.st.h2.getLsbD k = seed.getLsbD (min k 31)

/-- INCLUDE (41_include R101): a word with OP = 10 and LEN <= 16 is INCLUDE of lanes 0..LEN-1; it answers OK, counts the beat, and either
appends it to the tail or mixes exactly one block and refills the tail; nothing else changes. A word with LEN in 17..31 is not this
command: it is answered INVALID_ARGUMENT and writes nothing. -/
def Obligations.IncludeAbsorbsBeat : Prop :=
  (∀ (w : PortWord) (s : State), w.cmd.extractLsb' 0 2 = 0b10 → 17 ≤ (w.cmd.extractLsb' 2 5).toNat →
    exec (decode w) s =
      .next { s with responses := s.responses ++ [{ status := .invalidArgument, digest := none, phase := s.st.phase }] }) ∧
  (∀ w : PortWord, w.cmd.extractLsb' 0 2 = 0b10 → (w.cmd.extractLsb' 2 5).toNat ≤ 16 →
    decode w = .includeBeat ((List.range (w.cmd.extractLsb' 2 5).toNat).map (fun j => w.data.extractLsb' (8 * j) 8))) ∧
  ∀ (beat : List Byte) (s : State), beat.length ≤ 16 →
    exec (.includeBeat beat) s =
      .next { st :=
                if s.st.tail.length + beat.length < 16 then
                  { h1 := s.st.h1
                    h2 := s.st.h2
                    totalLength := s.st.totalLength + BitVec.ofNat 64 beat.length
                    tail := s.st.tail ++ beat
                    phase := .accumulating }
                else
                  { h1 := (blockMix ⟨s.st.h1, s.st.h2⟩ (s.st.tail ++ beat.take (16 - s.st.tail.length))).h1
                    h2 := (blockMix ⟨s.st.h1, s.st.h2⟩ (s.st.tail ++ beat.take (16 - s.st.tail.length))).h2
                    totalLength := s.st.totalLength + BitVec.ofNat 64 beat.length
                    tail := beat.drop (16 - s.st.tail.length)
                    phase := .accumulating }
              pending := s.pending
              responses := s.responses ++ [{ status := .ok, digest := none, phase := .accumulating }] }

/-- FINALIZE (42_finalize R120, R128, R131): a word with OP = 11 is FINALIZE; in every state it answers OK with FinalDigest of the state,
and writes nothing but `phase`. -/
def Obligations.FinalizeReturnsDigest : Prop :=
  (∀ w : PortWord, w.cmd.extractLsb' 0 2 = 0b11 → decode w = .finalize) ∧
  ∀ s : State,
    exec .finalize s =
      .next { st := { h1 := s.st.h1, h2 := s.st.h2, totalLength := s.st.totalLength, tail := s.st.tail, phase := .finalized }
              pending := s.pending
              responses := s.responses ++
                [{ status := .ok
                   digest := some (finalDigest ⟨s.st.h1, s.st.h2⟩ s.st.tail s.st.totalLength)
                   phase := .finalized }] }

/-- The two illegal classes (30_encoding R70; 60_exceptions R161): exactly the words with OP = 00, or OP = 10 and LEN in 17..31; each is
answered INVALID_ARGUMENT without a digest, and writes no state. -/
def Obligations.IllegalWordsAnswerInvalidArgument : Prop :=
  (∀ w : PortWord, (decode w).isLegal = false ↔
    w.cmd.extractLsb' 0 2 = 0b00 ∨ (w.cmd.extractLsb' 0 2 = 0b10 ∧ 17 ≤ (w.cmd.extractLsb' 2 5).toNat)) ∧
  (∀ s : State, exec .illegalOp0 s =
    .next { s with responses := s.responses ++ [{ status := .invalidArgument, digest := none, phase := s.st.phase }] }) ∧
  ∀ (len : BitVec 5) (s : State), 17 ≤ len.toNat → exec (.illegalIncludeLen len) s =
    .next { s with responses := s.responses ++ [{ status := .invalidArgument, digest := none, phase := s.st.phase }] }

/-- One response per command, with its status and digest (30_encoding R65, R66; 60_exceptions R163): OK exactly for the legal commands, a
digest exactly for FINALIZE, the codes 00 and 01 and no other. -/
def Obligations.EveryCommandAnswersOnce : Prop :=
  (∀ (i : Instr) (s : State), ∃ s' r, exec i s = .next s' ∧ s'.responses = s.responses ++ [r] ∧
    r.status.code = (if i.isLegal then 0b00 else 0b01) ∧ r.digest = (if i = .finalize then some s.st.digest else none) ∧
    r.phase = s'.st.phase) ∧
  ∀ c : Status, c.code ≠ 0b10 ∧ c.code ≠ 0b11

/-- The phase transitions (10_state R29), in every phase and whatever the LEN; hardware reset sets FRESH, whatever PARAM_RESET_SEED is. -/
def Obligations.PhaseTransitions : Prop :=
  (∀ (i : Instr) (s : State), ∃ s', exec i s = .next s' ∧
    s'.st.phase =
      (match i with
       | .reset _ => .fresh
       | .includeBeat _ => .accumulating
       | .finalize => .finalized
       | .illegalOp0 => s.st.phase
       | .illegalIncludeLen _ => s.st.phase)) ∧
  ∀ (paramResetSeed : BitVec 32) (inProgress : Option PortWord) (rest : List HostEvent) (s : State), s.pending = .rst inProgress :: rest →
    ∃ s', stepWith paramResetSeed s = .next s' ∧ s'.st.phase = .fresh

/-- The encoding of `PHASE[1:0]` (10_state R28): 00, 01, 10, never 11. -/
def Obligations.PhaseOutputEncoding : Prop :=
  Phase.code .fresh = 0b00 ∧ Phase.code .accumulating = 0b01 ∧ Phase.code .finalized = 0b10 ∧ ∀ s : State, s.phaseOut ≠ 0b11

/-- What a command leaves unchanged (41_include R104; 42_finalize R128; 60_exceptions R161; 43_reset R144): nothing takes an event off the
port or alters a delivered response; only RESET and an INCLUDE that completes a block write the accumulators; only RESET and INCLUDE
write the count and the tail; an illegal command writes no engine state. -/
def Obligations.CommandFrames : Prop :=
  ∀ (i : Instr) (s s' : State), exec i s = .next s' →
    s'.pending = s.pending ∧ s.responses <+: s'.responses ∧
    (match i with
     | .reset _ => True
     | .includeBeat beat => s.st.tail.length + beat.length < 16 → s'.st.h1 = s.st.h1 ∧ s'.st.h2 = s.st.h2 ∧ s.st.tail <+: s'.st.tail
     | .finalize =>
       s'.st.h1 = s.st.h1 ∧ s'.st.h2 = s.st.h2 ∧ s'.st.totalLength = s.st.totalLength ∧ s'.st.tail = s.st.tail
     | .illegalOp0 => s'.st = s.st
     | .illegalIncludeLen _ => s'.st = s.st)

/-! ### INCLUDE: block boundary handler and tail buffer mux -/

/-- The block assembled from tail and lanes (41_include R105): 16 bytes, the pending tail bytes first, then lane `i - t` at position `i`. -/
def Obligations.BlockAssembledLaneByLane : Prop :=
  ∀ tail beat : List Byte, tail.length ≤ 15 → 16 ≤ tail.length + beat.length →
    (assembleBlock tail beat).length = 16 ∧
    ∀ i < 16, (assembleBlock tail beat)[i]? = if i < tail.length then tail[i]? else beat[i - tail.length]?

/-- The two tail paths entry by entry (41_include R106, R107): append keeps the pending entries and puts lane `i` at entry `t + i`; refill
puts lane `16 - t + i` at entry `i`; the new length follows. -/
def Obligations.TailPathsEntryByEntry : Prop :=
  ∀ (beat : List Byte) (s : State), beat.length ≤ 16 → s.st.tail.length ≤ 15 →
    ∃ s', exec (.includeBeat beat) s = .next s' ∧
      (s.st.tail.length + beat.length ≤ 15 →
        s'.st.tail.length = s.st.tail.length + beat.length ∧
        (∀ i < s.st.tail.length, s'.st.tail[i]? = s.st.tail[i]?) ∧
        ∀ i < beat.length, s'.st.tail[s.st.tail.length + i]? = beat[i]?) ∧
      (16 ≤ s.st.tail.length + beat.length →
        s'.st.tail.length = s.st.tail.length + beat.length - 16 ∧
        ∀ i < s.st.tail.length + beat.length - 16, s'.st.tail[i]? = beat[16 - s.st.tail.length + i]?)

/-- The byte counter (41_include R103; 10_state R23): every INCLUDE with LEN <= 16 adds LEN modulo 2^64, whether or not a block completes. -/
def Obligations.IncludeCountsModulo2Pow64 : Prop :=
  ∀ (beat : List Byte) (s : State), beat.length ≤ 16 →
    ∃ s', exec (.includeBeat beat) s = .next s' ∧
      s'.st.totalLength.toNat = (s.st.totalLength.toNat + beat.length) % 2 ^ 64

/-- The zero-length beat (41_include R112): only `phase` changes, and the answer is OK. -/
def Obligations.EmptyBeatOnlyMovesPhase : Prop :=
  ∀ s : State, s.st.tail.length ≤ 15 →
    exec (.includeBeat []) s =
      .next { s with
              st := { s.st with phase := .accumulating }
              responses := s.responses ++ [{ status := .ok, digest := none, phase := .accumulating }] }

/-! ### The datapath -/

/-- Key mixing (40_mixing_engine R81, R82), with the literals of the spec and its examples. -/
def Obligations.KeyMixingFormulas : Prop :=
  (∀ k : Word, mixK1 k = rotl64 (k * 0x87c37b91114253d5) 31 * 0x4cf5ad432745937f) ∧
  (∀ k : Word, mixK2 k = rotl64 (k * 0x4cf5ad432745937f) 33 * 0x87c37b91114253d5) ∧
  mixK1 0x0000000000000001 = 0x34e09d0b6bdefe38 ∧ mixK2 0x0000000000000001 = 0x4e26f5539bb7c37e ∧ mixK1 0 = 0 ∧ mixK2 0 = 0

/-- The block step (40_mixing_engine R86), step by step, step 2 reading the h1 of step 1, with the spec's two examples. -/
def Obligations.BlockMixStepByStep : Prop :=
  (∀ (h1 h2 : Word) (block : List Byte), block.length = 16 →
    (let k1 := le64 (block.take 8)
     let k2 := le64 (block.drop 8)
     let h1a := h1 ^^^ mixK1 k1
     let h1b := rotl64 h1a 27
     let h1c := h1b + h2
     let h1d := h1c * 5 + 0x52dce729
     let h2a := h2 ^^^ mixK2 k2
     let h2b := rotl64 h2a 31
     let h2c := h2b + h1d
     let h2d := h2c * 5 + 0x38495ab5
     blockMix ⟨h1, h2⟩ block = ⟨h1d, h2d⟩)) ∧
  blockMix ⟨0, 0⟩ (List.replicate 16 0x00) = ⟨0x0000000052dce729, 0x00000001d699de82⟩ ∧
  blockMix ⟨0, 0⟩ ((List.range 16).map (BitVec.ofNat 8)) = ⟨0xdcac505ea5c458df, 0x72927c4be244042d⟩

/-- BlockMix over a sequence (40_mixing_engine R87): nothing for the empty sequence, the first block and then the rest otherwise. -/
def Obligations.BlockMixStarFolds : Prop :=
  (∀ h : Accumulators, blockMixStar h [] = h) ∧
  ∀ (h : Accumulators) (block rest : List Byte), block.length = 16 → rest.length % 16 = 0 →
    blockMixStar h (block ++ rest) = blockMixStar (blockMix h block) rest

/-- The final avalanche (40_mixing_engine R88), step by step, with the spec's examples. -/
def Obligations.FmixStepByStep : Prop :=
  (∀ k : Word,
    (let k1 := k ^^^ (k >>> 33)
     let k2 := k1 * 0xff51afd7ed558ccd
     let k3 := k2 ^^^ (k2 >>> 33)
     let k4 := k3 * 0xc4ceb9fe1a85ec53
     fmix64 k = k4 ^^^ (k4 >>> 33))) ∧
  fmix64 0 = 0 ∧ fmix64 0x0000000000000001 = 0xb456bcfc34c2cb2c ∧ fmix64 0xffffffffffffffff = 0x64b5720b4b825f21

/-- fmix64 is a bijection on 64-bit values (40_mixing_engine R89). -/
def Obligations.FmixIsBijective : Prop := Function.Bijective fmix64

/-- Rotation (00_scope R9): bit `k` of `rotl64(x, r)` is bit `k - r` modulo 64 of `x`. -/
def Obligations.RotlMovesEveryBit : Prop :=
  ∀ (x : Word) (r k : Nat), 0 < r → r < 64 → k < 64 → (rotl64 x r).getLsbD k = x.getLsbD ((k + 64 - r) % 64)

/-- Little-endian words (00_scope R12): byte `j` of at most 8 bytes lies at bits `8j+7:8j`, and the positions above are zero. -/
def Obligations.Le64PlacesBytes : Prop :=
  ∀ bytes : List Byte, bytes.length ≤ 8 →
    ∀ k < 64, (le64 bytes).getLsbD k = ((bytes[k / 8]?).map (fun b => b.getLsbD (k % 8))).getD false

/-! ### FINALIZE: tail packing and final mixing -/

/-- Tail packing (42_finalize R121): `k1` is the little-endian word of tail bytes 0 to 7, `k2` that of bytes 8 to 14, so byte 7 lies at
bits 63:56 of `k1` and byte 14 at bits 55:48 of `k2`. -/
def Obligations.TailPackingIsLittleEndian : Prop :=
  ∀ tail : List Byte, tail.length ≤ 15 →
    packTail tail = { k1 := le64 (tail.take 8), k2 := le64 (tail.drop 8) } ∧
    ∀ (i : Nat) (b : Byte), tail[i]? = some b → ∀ j < 8,
      (if i < 8 then (packTail tail).k1.getLsbD (8 * i + j) else (packTail tail).k2.getLsbD (8 * (i - 8) + j)) = b.getLsbD j

/-- The cascade's order (42_finalize R122): taken in any order, and with OR for XOR, the bytes pack to the same words. -/
def Obligations.TailPackingOrderImmaterial : Prop :=
  ∀ (tail : List Byte) (order : List (Byte × Nat)), tail.length ≤ 15 → order.Perm tail.zipIdx →
    order.foldl packByte { k1 := 0, k2 := 0 } = packTail tail ∧
    order.foldl (fun k e =>
      if 8 ≤ e.2 then { k with k2 := k.k2 ||| (zext64 e.1 <<< (8 * (e.2 - 8))) }
      else { k with k1 := k.k1 ||| (zext64 e.1 <<< (8 * e.2)) }) { k1 := 0, k2 := 0 } = packTail tail

/-- Tail mixing (42_finalize R123): `k2` from nine bytes on and `k1` from one on; mixing both words whenever any tail byte exists, or always, gives the same. -/
def Obligations.TailMixingForms : Prop :=
  ∀ (x1 x2 : Word) (tail : List Byte), tail.length ≤ 15 →
    (mixTail ⟨x1, x2⟩ tail).h1 = (if 1 ≤ tail.length then x1 ^^^ mixK1 (packTail tail).k1 else x1) ∧
    (mixTail ⟨x1, x2⟩ tail).h2 = (if 9 ≤ tail.length then x2 ^^^ mixK2 (packTail tail).k2 else x2) ∧
    mixTail ⟨x1, x2⟩ tail =
      (if 1 ≤ tail.length then ⟨x1 ^^^ mixK1 (packTail tail).k1, x2 ^^^ mixK2 (packTail tail).k2⟩ else ⟨x1, x2⟩) ∧
    mixTail ⟨x1, x2⟩ tail = ⟨x1 ^^^ mixK1 (packTail tail).k1, x2 ^^^ mixK2 (packTail tail).k2⟩

/-- The boundary of eight tail bytes (42_finalize R124): all of them lie in `k1`, `k2` stays 0 and the second word is not mixed. -/
def Obligations.EightByteTailMixesOnlyK1 : Prop :=
  ∀ (x1 x2 : Word) (tail : List Byte), tail.length = 8 →
    (packTail tail).k1 = le64 tail ∧ (packTail tail).k2 = 0 ∧ (mixTail ⟨x1, x2⟩ tail).h2 = x2

/-- Length mixing and avalanche (42_finalize R125), step by step, each second addition reading the sum just computed. -/
def Obligations.LengthMixingStepByStep : Prop :=
  ∀ (h1 h2 total : Word) (tail : List Byte),
    (let x := mixTail ⟨h1, h2⟩ tail
     let x1a := x.h1 ^^^ total
     let x2a := x.h2 ^^^ total
     let x1b := x1a + x2a
     let x2b := x2a + x1b
     let x1c := fmix64 x1b
     let x2c := fmix64 x2b
     let x1d := x1c + x2c
     let x2d := x2c + x1d
     finalDigest ⟨h1, h2⟩ tail total = ⟨x1d, x2d⟩)

/-! ### Sequences of commands -/

/-- Phase has no effect (10_state R30): from states that agree but in `phase`, every sequence of commands runs and gives the same
statuses and digests, and states that again agree but in `phase`. -/
def Obligations.PhaseNeverInfluences : Prop :=
  ∀ (is : List Instr) (a b : State), a.st.AgreeButPhase b.st → a.responses.map Response.reply = b.responses.map Response.reply →
    ∃ a' b', execAll is a = .next a' ∧ execAll is b = .next b' ∧ a'.st.AgreeButPhase b'.st ∧
      a'.responses.map Response.reply = b'.responses.map Response.reply

/-- RESET erases the past (43_reset R142): after it, any commands leave the same engine state and give the same responses whatever
the machine did before; and RESET with PARAM_RESET_SEED, whatever its value, leaves the state of hardware reset. -/
def Obligations.ResetErasesThePast : Prop :=
  (∀ (seed : BitVec 32) (is : List Instr) (a b : State),
    ∃ a' b', execAll (.reset seed :: is) a = .next a' ∧ execAll (.reset seed :: is) b = .next b' ∧ a'.st = b'.st ∧
      a'.responses.drop a.responses.length = b'.responses.drop b.responses.length) ∧
  ∀ (paramResetSeed : BitVec 32) (s : State),
    ∃ s', exec (.reset paramResetSeed) s = .next s' ∧ s'.st = (State.resetWith paramResetSeed).st

/-- Illegal commands leave no trace (60_exceptions R164): left out of a sequence, they change neither the engine's state nor the
responses to the other commands. -/
def Obligations.IllegalCommandsLeaveNoTrace : Prop :=
  ∀ (is : List Instr) (s : State),
    ∃ s1 s2, execAll is s = .next s1 ∧ execAll (is.filter Instr.isLegal) s = .next s2 ∧ s1.st = s2.st ∧
      (s1.responses.drop s.responses.length).filter (fun r => decide (r.status = .ok)) = s2.responses.drop s.responses.length

/-- FINALIZE disturbs nothing (42_finalize R128; 41_include R113): left out of a sequence, it changes nothing of the engine's state but `phase`. -/
def Obligations.FinalizeLeavesStreamAlone : Prop :=
  ∀ (is : List Instr) (s : State),
    ∃ s1 s2, execAll is s = .next s1 ∧ execAll (is.filter (fun i => decide (i ≠ .finalize))) s = .next s2 ∧
      s1.st.AgreeButPhase s2.st

/-- Idempotence of FINALIZE (42_finalize R129): with no RESET and no INCLUDE of LEN > 0 between them, two FINALIZE commands return
identical digests. The premise `tail_len <= 15` is the machine's invariant (R25). -/
def Obligations.FinalizeIdempotent : Prop :=
  ∀ (is : List Instr) (s : State), s.st.tail.length ≤ 15 → (∀ i ∈ is, keepsStream i = true) →
    ∃ s1 s2 r1 r2, exec .finalize s = .next s1 ∧ execAll (is ++ [.finalize]) s1 = .next s2 ∧
      s1.responses.getLast? = some r1 ∧ s2.responses.getLast? = some r2 ∧ r1.digest = some s.st.digest ∧ r2.digest = r1.digest

/-- INCLUDE_STREAM (30_encoding R74): the beats of `S` are its bytes in order, `ceil(len(S)/16)` of them, each of 16 bytes but the last. -/
def Obligations.StreamBeatsSplitInOrder : Prop :=
  ∀ bytes : List Byte,
    (streamBeats bytes).flatten = bytes ∧ (streamBeats bytes).length = (bytes.length + 15) / 16 ∧
    ∀ (k : Nat) (beat : List Byte), (streamBeats bytes)[k]? = some beat →
      beat.length = if k + 1 < (bytes.length + 15) / 16 then 16 else bytes.length - 16 * k

/-- Absorption does not depend on the split (41_include R111): any ordered beats of at most 16 bytes, and absorbing in two parts, leave
the same state apart from `phase`. The premise `tail_len <= 15` is the machine's invariant (R25). -/
def Obligations.AbsorbIgnoresTheSplit : Prop :=
  ∀ st : HashState, st.tail.length ≤ 15 →
    (∀ beats : List (List Byte), (∀ b ∈ beats, b.length ≤ 16) →
      (beats.foldl (fun st b => includeState b st) st).AgreeButPhase (absorb st beats.flatten)) ∧
    ∀ x y : List Byte, (absorb (absorb st x) y).AgreeButPhase (absorb st (x ++ y))

/-- Chunk invariance (41_include R110): from a reset state for a seed, every split of a byte sequence into beats of at most 16 bytes
leaves the state of 10_state R27 for that sequence, and the digest depends on seed and sequence alone. -/
def Obligations.ChunkInvariance : Prop :=
  ∀ (seed : BitVec 32) (beats : List (List Byte)) (s : State), s.st.Represents ⟨seed, []⟩ → (∀ b ∈ beats, b.length ≤ 16) →
    ∃ s', execAll (beats.map .includeBeat) s = .next s' ∧ s'.st.Represents ⟨seed, beats.flatten⟩ ∧
      s'.st.digest = ByteStream.digest ⟨seed, beats.flatten⟩

/-- A FINALIZE reflects exactly the commands accepted before it (20_memory R51): its response carries the digest of the stream that
those commands make, whatever is accepted after it. -/
def Obligations.FinalizeReflectsCommandsBefore : Prop :=
  ∀ (before later : List Instr) (s : State) (x : ByteStream), s.st.Represents x → (∀ i ∈ before, i.wellFormed = true) →
    ∃ s' r, execAll (before ++ .finalize :: later) s = .next s' ∧ s'.responses[s.responses.length + before.length]? = some r ∧
      r.status = .ok ∧ r.digest = some (before.foldl ByteStream.after x).digest

/-! ### The machine's step -/

/-- Decoding and the step (30_encoding R69): `decode` is the spec's total function, and a step at a presented command, on this hardware and
on a platform with any PARAM_RESET_SEED, executes the decoded command with that command taken off the port. -/
def Obligations.StepRunsDecodedCommand : Prop :=
  (∀ w : PortWord, decode w =
    (let op := w.cmd.extractLsb' 0 2
     let len := w.cmd.extractLsb' 2 5
     let seed := w.cmd.extractLsb' 8 32
     if op = 0b01 then .reset seed
     else if op = 0b10 ∧ len.toNat ≤ 16 then .includeBeat ((List.range len.toNat).map (fun j => w.data.extractLsb' (8 * j) 8))
     else if op = 0b11 then .finalize
     else if op = 0b00 then .illegalOp0
     else .illegalIncludeLen len)) ∧
  ∀ (w : PortWord) (rest : List HostEvent) (s : State), s.pending = .command w :: rest →
    step s = exec (decode w) { s with pending := rest } ∧
    ∀ paramResetSeed : BitVec 32, stepWith paramResetSeed s = exec (decode w) { s with pending := rest }

/-- Hardware reset (70_reset_and_hazards R180, R181): asserting RST puts every element of the engine's state at its reset value, which is
what RESET with seed PARAM_RESET_SEED leaves, gives no response, and a command in progress leaves no trace; so for any PARAM_RESET_SEED, and
for this hardware, whose value is 0. -/
def Obligations.RstResetsWithoutResponse : Prop :=
  (∀ (paramResetSeed : BitVec 32) (inProgress : Option PortWord) (rest : List HostEvent) (s : State), s.pending = .rst inProgress :: rest →
    ∃ s' r, stepWith paramResetSeed s = .next s' ∧ exec (.reset paramResetSeed) s = .next r ∧
      s'.st = { h1 := paramResetSeed.signExtend 64
                h2 := paramResetSeed.signExtend 64
                totalLength := 0
                tail := []
                phase := .fresh } ∧
      s'.st = (State.resetWith paramResetSeed).st ∧ s'.st = r.st ∧ s'.responses = s.responses) ∧
  Config.paramResetSeed = 0 ∧ State.reset = State.resetWith Config.paramResetSeed ∧
  ∀ s : State, step s = stepWith Config.paramResetSeed s

/-- An RST takes itself off the port and leaves what is presented after it, whatever command was in progress. That presented commands stay is
the model's choice (log entry 4), of which the spec says nothing (70_reset_and_hazards R190); the port is the model's (log entry 1). -/
def Obligations.RstLeavesPresentedEvents : Prop :=
  ∀ (paramResetSeed : BitVec 32) (inProgress : Option PortWord) (rest : List HostEvent) (s : State), s.pending = .rst inProgress :: rest →
    ∃ s', stepWith paramResetSeed s = .next s' ∧ s'.pending = rest ∧
      stepWith paramResetSeed { s with pending := .rst none :: rest } = .next s'

/-- The engine's state after hardware reset (10_state R33): `sext_64(PARAM_RESET_SEED)` in both accumulators for any value of the parameter,
all zeros for this hardware's value 0. -/
def Obligations.ResetStateValues : Prop :=
  (∀ paramResetSeed : BitVec 32, (State.resetWith paramResetSeed).st =
    { h1 := paramResetSeed.signExtend 64, h2 := paramResetSeed.signExtend 64, totalLength := 0, tail := [], phase := .fresh }) ∧
  State.reset.st = { h1 := 0x0000000000000000, h2 := 0x0000000000000000, totalLength := 0, tail := [], phase := .fresh }

/-- An idle engine keeps its state (60_exceptions R173). That nothing presented is a step of its own is the model's choice (log entry 1). -/
def Obligations.IdleKeepsState : Prop :=
  ∀ s : State, s.pending = [] → step s = .next s ∧ ∀ paramResetSeed : BitVec 32, stepWith paramResetSeed s = .next s

/-- The word placed by `withFetchWord` is the next command executed. The placing itself is the model's choice (log entry 2). -/
def Obligations.PlacedWordRunsNext : Prop :=
  ∀ (s : State) (nbits w : Nat), ∃ i, decodeTableWord nbits w = some i ∧ step (s.withFetchWord nbits w) = exec i s

/-- The order of execution (20_memory R46, R50): the commands standing on the port take effect one at a time in the order presented, so
as many steps as there are commands are those commands executed in order. The port is the model's (log entry 1). -/
def Obligations.RunIsCommandsInOrder : Prop :=
  ∀ (ws : List PortWord) (rest : List HostEvent) (s : State), s.pending = presented ws ++ rest →
    Sys2Proof.core.run ws.length s = execAll (ws.map decode) { s with pending := rest } ∧
    ∀ paramResetSeed : BitVec 32, (coreWith paramResetSeed).run ws.length s = execAll (ws.map decode) { s with pending := rest }

/-- Every presented command is answered exactly once (30_encoding R65; 20_memory R46): after as many steps as there are events on the port
nothing is left, the earlier responses stand first, and as many were added as there were commands. The port is the model's choice (log
entry 1), so is that each step takes an event (log entry 5, the fairness of R187), and so is that commands standing behind an RST stay and
are answered (log entry 4). -/
def Obligations.EveryPresentedCommandAnswered : Prop :=
  ∀ (paramResetSeed : BitVec 32) (s : State), ∃ s', (coreWith paramResetSeed).run s.pending.length s = .next s' ∧ s'.pending = [] ∧
    s.responses <+: s'.responses ∧ s'.responses.length = s.responses.length + commandCount s.pending

/-- Unused fields are ignored (30_encoding R64): two command words that agree in the fields their command uses give the same step, the
same state and the same response. -/
def Obligations.UnusedFieldsIgnored : Prop :=
  ∀ (paramResetSeed : BitVec 32) (v w : PortWord) (rest : List HostEvent) (s : State),
    cmdOp v.cmd = cmdOp w.cmd →
    (cmdOp v.cmd = 0b01 → cmdSeed v.cmd = cmdSeed w.cmd) →
    (cmdOp v.cmd = 0b10 → cmdLen v.cmd = cmdLen w.cmd ∧ ∀ j < (cmdLen v.cmd).toNat, j < 16 → lane v.data j = lane w.data j) →
    stepWith paramResetSeed { s with pending := .command v :: rest } = stepWith paramResetSeed { s with pending := .command w :: rest }

/-! ### Encoding -/

/-- Decode and encode agree: the words of a well-formed command decode to it, with every operand at every value (30_encoding R69, R73). -/
def Obligations.DecodeEncodeRoundTrip : Prop := ∀ i : Instr, i.wellFormed = true → decode (encode i) = i

/-- The other direction (30_encoding R61, R64): encoding a decoded word gives back OP and every field its command uses. -/
def Obligations.EncodeKeepsUsedFields : Prop :=
  ∀ w : PortWord,
    cmdOp (encode (decode w)).cmd = cmdOp w.cmd ∧
    (cmdOp w.cmd = 0b01 → cmdSeed (encode (decode w)).cmd = cmdSeed w.cmd) ∧
    (cmdOp w.cmd = 0b10 → cmdLen (encode (decode w)).cmd = cmdLen w.cmd) ∧
    (cmdOp w.cmd = 0b10 → (cmdLen w.cmd).toNat ≤ 16 → ∀ j < (cmdLen w.cmd).toNat, lane (encode (decode w)).data j = lane w.data j)

/-- Decoding never leaves the well-formed commands: at most 16 bytes in a beat (30_encoding R62, R70). -/
def Obligations.DecodedIsWellFormed : Prop := ∀ w : PortWord, (decode w).wellFormed = true

/-- The opcode map (30_encoding R77, R69): exactly one row covers each word, and it names the command the word decodes to. -/
def Obligations.OpcodeMapIsUnambiguous : Prop :=
  ∀ w : PortWord, ∃ r, opcodeMap.filter (fun r => r.covers w.cmd) = [r] ∧ r.mnemonic = (decode w).mnemonic

/-- A few words of 95_test_vectors (V35, P1) decode to the commands written beside them. -/
def Obligations.DecodesSpecWords : Prop :=
  decode ⟨0xffffffff01, 0⟩ = .reset 0xffffffff ∧ decode ⟨0x00000001fd, 0⟩ = .reset 1 ∧
  decode ⟨0x000000000e, 0x6c6568⟩ = .includeBeat [0x68, 0x65, 0x6c] ∧ decode ⟨0x1234567806, 0xffffffffffffffffffffffffffffff61⟩ = .includeBeat [0x61] ∧
  decode ⟨0xabcdef12ff, 0⟩ = .finalize ∧ decode ⟨0x00000000fc, 0⟩ = .illegalOp0 ∧ decode ⟨0x00000000c6, 0⟩ = .illegalIncludeLen 17

/-- The assembler (30_encoding R73): a signed seed modulo 2^32, a beat as LEN and lanes with the unused lanes zero, FINALIZE, and an
assembly error for more than 16 bytes; with the four examples of R73. -/
def Obligations.AssemblerEncodes : Prop :=
  (∀ v : Int, -2147483648 ≤ v → v ≤ 2147483647 →
    ∃ w, assemble (.reset (.dec v)) = some w ∧ (w.cmd.toNat : Int) = (v % 2 ^ 32) * 2 ^ 8 + 0b01 ∧ w.data = 0) ∧
  (∀ bytes : List Byte, bytes.length ≤ 16 →
    ∃ w, assemble (.includeBytes bytes) = some w ∧ w.cmd.toNat = bytes.length * 2 ^ 2 + 0b10 ∧
      ∀ j < 16, w.data.extractLsb' (8 * j) 8 = bytes[j]?.getD 0) ∧
  (∀ bytes : List Byte, 16 < bytes.length → assemble (.includeBytes bytes) = none) ∧
  assemble (.reset (.dec 0)) = some ⟨0x0000000001, 0⟩ ∧ assemble (.reset (.dec (-1))) = some ⟨0xffffffff01, 0⟩ ∧
  assemble (.includeText [0x68, 0x65, 0x6c]) = some ⟨0x000000000e, 0x6c6568⟩ ∧ assemble .finalize = some ⟨0x0000000003, 0⟩

/-! ### Invariants and headline results -/

/-- The machine's invariant (10_state R25, R27; 30_encoding R66) is kept by every step of this hardware, and of a platform with any
PARAM_RESET_SEED. -/
def Obligations.StepKeepsInvariant : Prop :=
  (∀ s s' : State, s.Inv → step s = .next s' → s'.Inv) ∧
  ∀ (paramResetSeed : BitVec 32) (s s' : State), s.Inv → stepWith paramResetSeed s = .next s' → s'.Inv

/-- The machine's invariant holds after hardware reset (10_state R33), for this hardware and for any PARAM_RESET_SEED. -/
def Obligations.InvariantHoldsAtReset : Prop :=
  State.reset.Inv ∧ ∀ paramResetSeed : BitVec 32, (State.resetWith paramResetSeed).Inv

/-- The stream invariant (10_state R27) is kept by every step, for any PARAM_RESET_SEED: the engine's state stays the one that the stream
since the last reset gives. The idle step and the port are the model's (log entry 1). -/
def Obligations.StepKeepsStreamInvariant : Prop :=
  ∀ (paramResetSeed : BitVec 32) (s : State) (x : ByteStream), s.st.Represents x →
    ∃ s', stepWith paramResetSeed s = .next s' ∧
      s'.st.Represents
        (match s.pending with
         | [] => x
         | .command w :: _ => x.after (decode w)
         | .rst _ :: _ => ⟨paramResetSeed, []⟩)

/-- The stream invariant holds after hardware reset, with the empty stream (10_state R27, R33), for any PARAM_RESET_SEED. -/
def Obligations.StreamInvariantHoldsAtReset : Prop :=
  State.reset.st.Represents ⟨0, []⟩ ∧ ∀ paramResetSeed : BitVec 32, (State.resetWith paramResetSeed).st.Represents ⟨paramResetSeed, []⟩

/-- What the stream invariant says of the fields (10_state R27): `tail_len = L mod 16`, the tail is the stream from `16*floor(L/16)` on,
`total_length = L mod 2^64`, the accumulators are BlockMix over the complete blocks from the seed's, and `tail_len = total_length mod 16`. -/
def Obligations.StreamInvariantFields : Prop :=
  ∀ (st : HashState) (x : ByteStream), st.Represents x →
    st.tailLen = x.bytes.length % 16 ∧ st.tail = x.bytes.drop (16 * (x.bytes.length / 16)) ∧
    st.totalLength.toNat = x.bytes.length % 2 ^ 64 ∧
    st.accumulators = blockMixStar ⟨x.seed.signExtend 64, x.seed.signExtend 64⟩ (x.bytes.take (16 * (x.bytes.length / 16))) ∧
    st.tailLen = st.totalLength.toNat % 16

/-- The stream invariant after any commands (10_state R27): after every sequence of commands from hardware reset, for any PARAM_RESET_SEED, the
fields are those that the stream since the last reset gives. -/
def Obligations.StreamInvariantAfterEveryCommand : Prop :=
  ∀ (paramResetSeed : BitVec 32) (is : List Instr) (s : State), s.st = (State.resetWith paramResetSeed).st → (∀ i ∈ is, i.wellFormed = true) →
    ∃ s', execAll is s = .next s' ∧
      (let x := is.foldl ByteStream.after ⟨paramResetSeed, []⟩
       let blocks := x.bytes.length / 16
       s'.st.tailLen = x.bytes.length % 16 ∧ s'.st.tail = x.bytes.drop (16 * blocks) ∧ s'.st.totalLength.toNat = x.bytes.length % 2 ^ 64 ∧
         s'.st.accumulators = blockMixStar ⟨x.seed.signExtend 64, x.seed.signExtend 64⟩ (x.bytes.take (16 * blocks)) ∧
         s'.st.tailLen = s'.st.totalLength.toNat % 16)

/-- The streamed hash is the one-call hash (30_encoding R76; 41_include R110; 42_finalize R126): the words of HASH_ONESHOT presented on the
port in any state, for any PARAM_RESET_SEED, are all taken, and the last response is OK with the digest computed from the whole byte sequence
at once. The port is the model's (log entry 1). -/
def Obligations.HashOneShotComputesDigest : Prop :=
  ∀ (paramResetSeed : BitVec 32) (bytes : List Byte) (seed : BitVec 32) (s : State),
    s.pending = presented ((hashOneShot bytes seed).map encode) →
    ∃ s' r, (coreWith paramResetSeed).run s.pending.length s = .next s' ∧ s'.pending = [] ∧ s'.responses.getLast? = some r ∧
      r.status = .ok ∧ r.digest = some (ByteStream.digest ⟨seed, bytes⟩)

/-- Instances are independent (60_exceptions R171): stepping an instance steps its own state and leaves every other as it was, and steps of
two instances give the same platform in either order. Stepping one instance at a time is the model's reading of R171 (log entry 7, DEDUCED); an
index at which there is no instance steps nothing, which is the model's choice (log entry 7). -/
def Obligations.InstancesAreIndependent : Prop :=
  ∀ (paramResetSeed : BitVec 32) (p : Platform) (j k : Nat), j ≠ k →
    ∃ pj pk q, stepInstance paramResetSeed j p = .next pj ∧ stepInstance paramResetSeed k p = .next pk ∧
      stepInstance paramResetSeed k pj = .next q ∧ stepInstance paramResetSeed j pk = .next q ∧
      (∀ s s' : State, p[j]? = some s → stepWith paramResetSeed s = .next s' → pj[j]? = some s') ∧
      ∀ i ≠ j, pj[i]? = p[i]?

/-- The digest as one value (42_finalize R127): `h2final` is the more significant word, `h1final` the less significant one. -/
def Obligations.DigestValueWordOrder : Prop :=
  ∀ d : Digest, d.value.toNat = d.h2final.toNat * 2 ^ 64 + d.h1final.toNat

/-- Determinism (70_reset_and_hazards R190, R191): what the host observes of a run depends on PARAM_RESET_SEED, the engine's state and what is
presented alone, not on the responses delivered before the run. The port is the model's (log entry 1), and so is that events behind an RST stay
presented (log entry 4). -/
def Obligations.ObservationIsDetermined : Prop :=
  ∀ (paramResetSeed : BitVec 32) (k : Nat) (a b : State), a.st = b.st → a.pending = b.pending →
    ∃ a' b', (coreWith paramResetSeed).run k a = .next a' ∧ (coreWith paramResetSeed).run k b = .next b' ∧ a'.st = b'.st ∧
      State.observation a.responses.length a' = State.observation b.responses.length b'

/-- Every state a run may start from (70_reset_and_hazards R190) meets the invariant of the engine's state: `tail_len` in 0..15 (10_state R25),
`tail_len = total_length mod 16` (10_state R27). -/
def Obligations.RunStartsMeetInvariant : Prop := ∀ s : State, s.IsRunStart → s.st.Inv
end

