-- ==== Sys2Proof/Laws/Decode.lean ====
section
/-! SUPPORT. The fields of a command word as numbers, the words of the encoder as numbers, and the lanes of a packed beat. -/

namespace Sys2Proof

theorem cmdOp_toNat (cmd : BitVec 40) : (cmdOp cmd).toNat = cmd.toNat % 4 := by
  simp [cmdOp, BitVec.extractLsb'_toNat]

theorem cmdLen_toNat (cmd : BitVec 40) : (cmdLen cmd).toNat = cmd.toNat / 4 % 32 := by
  simp [cmdLen, BitVec.extractLsb'_toNat, Nat.shiftRight_eq_div_pow]

theorem cmdRsvd_toNat (cmd : BitVec 40) : (cmdRsvd cmd).toNat = cmd.toNat / 128 % 2 := by
  simp [cmdRsvd, BitVec.extractLsb'_toNat, Nat.shiftRight_eq_div_pow]

theorem cmdSeed_toNat (cmd : BitVec 40) : (cmdSeed cmd).toNat = cmd.toNat / 256 % 2 ^ 32 := by
  simp [cmdSeed, BitVec.extractLsb'_toNat, Nat.shiftRight_eq_div_pow]

/-- A field shifted above a small constant, as a number. -/
theorem toNat_shift_or (x c : BitVec 40) (k : Nat) (hc : c.toNat < 2 ^ k) (hx : x.toNat * 2 ^ k < 2 ^ 40) :
    ((x <<< k) ||| c).toNat = x.toNat * 2 ^ k + c.toNat := by
  rw [BitVec.toNat_or, BitVec.toNat_shiftLeft, Nat.shiftLeft_eq, Nat.mod_eq_of_lt hx, ← Nat.shiftLeft_eq,
    Nat.shiftLeft_add_eq_or_of_lt hc]

theorem encode_reset_toNat (seed : BitVec 32) : (encode (.reset seed)).cmd.toNat = seed.toNat * 256 + 1 := by
  have hs := seed.isLt
  have h : (seed.setWidth 40).toNat = seed.toNat := by simp; omega
  exact (toNat_shift_or (seed.setWidth 40) 0b01 8 (by decide) (by rw [h]; omega)).trans (by rw [h]; rfl)

theorem encode_includeBeat_toNat (beat : List Byte) (hb : beat.length ≤ 16) :
    (encode (.includeBeat beat)).cmd.toNat = beat.length * 4 + 2 := by
  have h : (BitVec.ofNat 40 beat.length).toNat = beat.length := by simp; omega
  exact (toNat_shift_or (BitVec.ofNat 40 beat.length) 0b10 2 (by decide) (by rw [h]; omega)).trans (by rw [h]; rfl)

theorem encode_illegalIncludeLen_toNat (len : BitVec 5) : (encode (.illegalIncludeLen len)).cmd.toNat = len.toNat * 4 + 2 := by
  have hs := len.isLt
  have h : (len.setWidth 40).toNat = len.toNat := by simp; omega
  exact (toNat_shift_or (len.setWidth 40) 0b10 2 (by decide) (by rw [h]; omega)).trans (by rw [h]; rfl)

/-- The bits of a packed beat: byte `k / 8`, bit `k % 8`, and zero above the beat (30_encoding R63, R73). -/
theorem getLsbD_packLanes (beat : List Byte) (hb : beat.length ≤ 16) (k : Nat) :
    (packLanes beat).getLsbD k = ((beat[k / 8]?).map (·.getLsbD (k % 8))).getD false := by
  induction beat generalizing k with
  | nil => simp [packLanes]
  | cons b bs ih =>
    simp only [List.length_cons] at hb
    simp only [packLanes, BitVec.getLsbD_or, BitVec.getLsbD_setWidth, BitVec.getLsbD_shiftLeft]
    by_cases hk : k < 8
    · simp [hk, Nat.div_eq_of_lt hk, Nat.mod_eq_of_lt hk]; omega
    · obtain ⟨m, rfl⟩ : ∃ m, k = m + 8 := ⟨k - 8, by omega⟩
      have hb' : b.getLsbD (m + 8) = false := BitVec.getLsbD_of_ge _ _ (by omega)
      rw [hb', show (m + 8) / 8 = m / 8 + 1 by omega, show (m + 8) % 8 = m % 8 by omega, List.getElem?_cons_succ]
      have := ih (by omega) m
      by_cases hm : m + 8 < 128
      · simp [hm, this]
      · have : bs[m / 8]? = none := List.getElem?_eq_none (by omega)
        simp [hm, this]

/-- Lane `j` of a packed beat is its byte `j` (30_encoding R63, R73). -/
theorem lane_packLanes (beat : List Byte) (hb : beat.length ≤ 16) (j : Nat) (hj : j < beat.length) :
    lane (packLanes beat) j = beat[j] := by
  apply BitVec.eq_of_getLsbD_eq
  intro i hi
  have e : (8 * j + i) / 8 = j := by omega
  have e' : (8 * j + i) % 8 = i := by omega
  simp [lane, hi, getLsbD_packLanes beat hb, e, e', hj]

@[simp] theorem beatOf_length (n : Nat) (data : BitVec 128) : (beatOf n data).length = n := by simp [beatOf]

theorem beatOf_getElem (n : Nat) (data : BitVec 128) (j : Nat) (hj : j < n) :
    (beatOf n data)[j]'(by simpa using hj) = lane data j := by simp [beatOf]

/-- The decoder's arm by the number of `OP` and the length. -/
theorem decode_reset {w : PortWord} (h : cmdOp w.cmd = 0b01) : decode w = .reset (cmdSeed w.cmd) := by simp [decode, h]

theorem decode_includeBeat {w : PortWord} (h : cmdOp w.cmd = 0b10) (hl : (cmdLen w.cmd).toNat ≤ 16) :
    decode w = .includeBeat (beatOf (cmdLen w.cmd).toNat w.data) := by simp [decode, h, hl, Config.maxBeatBytes]

theorem decode_illegalIncludeLen {w : PortWord} (h : cmdOp w.cmd = 0b10) (hl : 16 < (cmdLen w.cmd).toNat) :
    decode w = .illegalIncludeLen (cmdLen w.cmd) := by
  have : ¬ (cmdLen w.cmd).toNat ≤ 16 := by omega
  simp [decode, h, this, Config.maxBeatBytes]

theorem decode_finalize {w : PortWord} (h : cmdOp w.cmd = 0b11) : decode w = .finalize := by simp [decode, h]

theorem decode_illegalOp0 {w : PortWord} (h : cmdOp w.cmd = 0b00) : decode w = .illegalOp0 := by simp [decode, h]

/-- The four operations and the two lengths of an INCLUDE are all there is (30_encoding R68). -/
theorem cmd_cases (cmd : BitVec 40) :
    cmdOp cmd = 0b01 ∨ (cmdOp cmd = 0b10 ∧ (cmdLen cmd).toNat ≤ 16) ∨ cmdOp cmd = 0b11 ∨ cmdOp cmd = 0b00 ∨
      (cmdOp cmd = 0b10 ∧ 16 < (cmdLen cmd).toNat) := by
  have h : (cmdOp cmd).toNat < 4 := (cmdOp cmd).isLt
  have e (v : BitVec 2) : cmdOp cmd = v ↔ (cmdOp cmd).toNat = v.toNat := BitVec.toNat_eq ..
  rw [e, e, e, e, show (1 : BitVec 2).toNat = 1 from rfl, show (2 : BitVec 2).toNat = 2 from rfl,
    show (3 : BitVec 2).toNat = 3 from rfl, show (0 : BitVec 2).toNat = 0 from rfl]
  omega

end Sys2Proof
end

