-- ==== Sys2Proof/Laws/State.lean ====
section
/-! SUPPORT. One lemma per field per shared update of the state, true by unfolding; no later proof needs to unfold an update. -/

namespace Sys2Proof.Machine

@[simp] theorem blockBytes_eq : Config.blockBytes = 16 := rfl
@[simp] theorem maxBeatBytes_eq : Config.maxBeatBytes = 16 := rfl
@[simp] theorem tailCapacity_eq : Config.tailCapacity = 15 := rfl

@[simp] theorem respond_st (status : Status) (d : Option Digest) (s : State) : (respond status d s).st = s.st := rfl
@[simp] theorem respond_pending (status : Status) (d : Option Digest) (s : State) : (respond status d s).pending = s.pending := rfl
@[simp] theorem respond_responses (status : Status) (d : Option Digest) (s : State) :
    (respond status d s).responses = s.responses ++ [{ status := status, digest := d, phase := s.st.phase }] := rfl

@[simp] theorem complete_st (st : HashState) (d : Option Digest) (s : State) : (complete st d s).st = st := rfl
@[simp] theorem complete_pending (st : HashState) (d : Option Digest) (s : State) : (complete st d s).pending = s.pending := rfl
@[simp] theorem complete_responses (st : HashState) (d : Option Digest) (s : State) :
    (complete st d s).responses = s.responses ++ [{ status := .ok, digest := d, phase := st.phase }] := rfl

@[simp] theorem raiseInvalidArgument_st (s : State) : (raiseInvalidArgument s).st = s.st := rfl
@[simp] theorem raiseInvalidArgument_pending (s : State) : (raiseInvalidArgument s).pending = s.pending := rfl
@[simp] theorem raiseInvalidArgument_responses (s : State) :
    (raiseInvalidArgument s).responses = s.responses ++ [{ status := .invalidArgument, digest := none, phase := s.st.phase }] := rfl

@[simp] theorem hardwareReset_st (seed : BitVec 32) (s : State) : (hardwareReset seed s).st = seededState seed := rfl
@[simp] theorem hardwareReset_pending (seed : BitVec 32) (s : State) : (hardwareReset seed s).pending = s.pending := rfl
@[simp] theorem hardwareReset_responses (seed : BitVec 32) (s : State) : (hardwareReset seed s).responses = s.responses := rfl

@[simp] theorem presentCommand_st (w : PortWord) (s : State) : (presentCommand w s).st = s.st := rfl
@[simp] theorem presentCommand_pending (w : PortWord) (s : State) : (presentCommand w s).pending = .command w :: s.pending := rfl
@[simp] theorem presentCommand_responses (w : PortWord) (s : State) : (presentCommand w s).responses = s.responses := rfl

@[simp] theorem seededState_h1 (seed : BitVec 32) : (seededState seed).h1 = sext64 seed := rfl
@[simp] theorem seededState_h2 (seed : BitVec 32) : (seededState seed).h2 = sext64 seed := rfl
@[simp] theorem seededState_totalLength (seed : BitVec 32) : (seededState seed).totalLength = 0 := rfl
@[simp] theorem seededState_tail (seed : BitVec 32) : (seededState seed).tail = [] := rfl
@[simp] theorem seededState_phase (seed : BitVec 32) : (seededState seed).phase = .fresh := rfl

@[simp] theorem finalizeState_h1 (st : HashState) : (finalizeState st).h1 = st.h1 := rfl
@[simp] theorem finalizeState_h2 (st : HashState) : (finalizeState st).h2 = st.h2 := rfl
@[simp] theorem finalizeState_totalLength (st : HashState) : (finalizeState st).totalLength = st.totalLength := rfl
@[simp] theorem finalizeState_tail (st : HashState) : (finalizeState st).tail = st.tail := rfl
@[simp] theorem finalizeState_phase (st : HashState) : (finalizeState st).phase = .finalized := rfl

/-- The reset state written in State.lean is the seeded state of the shared operation, for every PARAM_RESET_SEED. -/
@[simp] theorem resetWith_st (seed : BitVec 32) : (State.resetWith seed).st = seededState seed := rfl
@[simp] theorem resetWith_pending (seed : BitVec 32) : (State.resetWith seed).pending = [] := rfl
@[simp] theorem resetWith_responses (seed : BitVec 32) : (State.resetWith seed).responses = [] := rfl

/-- This hardware's reset state and step are those of its PARAM_RESET_SEED (70_reset_and_hazards R180). -/
theorem reset_eq : State.reset = State.resetWith Config.paramResetSeed := rfl
theorem step_eq (s : State) : step s = stepWith Config.paramResetSeed s := rfl

end Sys2Proof.Machine
end

