-- ==== Sys2Proof/Laws/Mixing.lean ====
section
/-! SUPPORT. Small lemmas of the operand forms and of the datapath: bits of a widened and shifted byte, little-endian words term by term,
the shift step of fmix64, and BlockMix over the blocks of a longer sequence. -/

namespace Sys2Proof.Machine

/-- A byte shifted into its field: its bits at `n .. n+7`, zero elsewhere (00_scope R12; 42_finalize R121). -/
theorem getLsbD_zext64_shift (b : Byte) (n k : Nat) (hk : k < 64) :
    (zext64 b <<< n).getLsbD k = (decide (n ≤ k ∧ k < n + 8) && b.getLsbD (k - n)) := by
  simp only [BitVec.getLsbD_shiftLeft, zext64, BitVec.getLsbD_setWidth, hk]
  by_cases h : k < n
  · simp [h, show ¬ n ≤ k by omega]
  · by_cases h2 : k < n + 8
    · simp [h, h2, show n ≤ k by omega]; omega
    · rw [BitVec.getLsbD_of_ge b _ (by omega)]; simp

@[simp] theorem le64From_nil (i : Nat) : le64From i [] = 0 := rfl

theorem le64From_cons (i : Nat) (b : Byte) (bs : List Byte) :
    le64From i (b :: bs) = (zext64 b <<< (8 * i)) ||| le64From (i + 1) bs := rfl

@[simp] theorem le64_nil : le64 [] = 0 := rfl

/-- The shift step of fmix64 undoes itself, since the shift exceeds half the width (40_mixing_engine R89). -/
theorem xorShift33_involutive : Function.Involutive xorShift33 := by
  intro k
  apply BitVec.eq_of_getLsbD_eq
  intro i hi
  simp only [xorShift33, BitVec.getLsbD_xor, BitVec.getLsbD_ushiftRight]
  rw [show k.getLsbD (33 + (33 + i)) = false from BitVec.getLsbD_of_ge _ _ (by omega)]
  simp

/-- Bytes beyond the blocks that are mixed do not matter (40_mixing_engine R87). -/
theorem blockMixStarFrom_append (n : Nat) (h : Accumulators) (bytes more : List Byte) (hn : 16 * n ≤ bytes.length) :
    blockMixStarFrom n h (bytes ++ more) = blockMixStarFrom n h bytes := by
  induction n generalizing h bytes with
  | zero => rfl
  | succ n ih =>
    simp only [blockMixStarFrom]
    rw [blockBytes_eq, List.take_append_of_le_length (by omega), List.drop_append_of_le_length (by omega), ih]
    simp; omega

/-- One more block is mixed last (40_mixing_engine R87). -/
theorem blockMixStarFrom_succ (n : Nat) (h : Accumulators) (bytes : List Byte) :
    blockMixStarFrom (n + 1) h bytes = blockMix (blockMixStarFrom n h bytes) ((bytes.drop (16 * n)).take 16) := by
  induction n generalizing h bytes with
  | zero => simp [blockMixStarFrom]
  | succ n ih =>
    rw [blockMixStarFrom, ih, blockMixStarFrom]
    simp; congr 3; omega

end Sys2Proof.Machine
end

