-- ==== Sys2Proof/Laws/Ops.lean ====
section
/-! SUPPORT. What each shared operation can do, said once: taking an event, the fields of INCLUDE's next engine state, and that digests
do not read `phase`. -/

namespace Sys2Proof.Machine

/-- Everything `nextEvent` can answer: nothing where nothing is presented, else the first event and the port without it. -/
theorem nextEvent_cases (s : State) :
    (s.pending = [] ∧ nextEvent s = none) ∨
      ∃ e rest, s.pending = e :: rest ∧ nextEvent s = some (e, { s with pending := rest }) := by
  unfold nextEvent
  cases h : s.pending with
  | nil => exact .inl ⟨rfl, rfl⟩
  | cons e rest => exact .inr ⟨e, rest, rfl, rfl⟩

/-- `completesBlock` decides whether 16 bytes are available (41_include R102). -/
@[simp] theorem completesBlock_iff (t n : Nat) : completesBlock t n = true ↔ 16 ≤ t + n := by
  simp [completesBlock]

/-- INCLUDE's next engine state where no block completes (41_include R101, R106). -/
theorem includeState_append (beat : List Byte) (st : HashState) (h : st.tail.length + beat.length < 16) :
    includeState beat st =
      { st with totalLength := st.totalLength + beatCount beat, tail := st.tail ++ beat, phase := .accumulating } := by
  have : ¬ completesBlock st.tailLen beat.length = true := by simp [HashState.tailLen]; omega
  simp only [includeState, this, if_false, appendTail, Bool.false_eq_true]

/-- INCLUDE's next engine state where a block completes (41_include R101, R105, R107). -/
theorem includeState_complete (beat : List Byte) (st : HashState) (h : 16 ≤ st.tail.length + beat.length) :
    includeState beat st =
      { h1 := (blockMix st.accumulators (assembleBlock st.tail beat)).h1
        h2 := (blockMix st.accumulators (assembleBlock st.tail beat)).h2
        totalLength := st.totalLength + beatCount beat
        tail := refillTail st.tail beat
        phase := .accumulating } := by
  have : completesBlock st.tailLen beat.length = true := by simp [HashState.tailLen]; omega
  simp only [includeState, this, if_true]

/-- Every INCLUDE counts its beat (41_include R103). -/
@[simp] theorem includeState_totalLength (beat : List Byte) (st : HashState) :
    (includeState beat st).totalLength = st.totalLength + beatCount beat := by
  unfold includeState; split <;> rfl

/-- Every INCLUDE leaves the phase ACCUMULATING (10_state R29). -/
@[simp] theorem includeState_phase (beat : List Byte) (st : HashState) : (includeState beat st).phase = .accumulating := by
  unfold includeState; split <;> rfl

/-- The length of the tail an INCLUDE leaves (41_include R106, R107). -/
theorem includeState_tail_length (beat : List Byte) (st : HashState) (h : st.tail.length ≤ 15) :
    (includeState beat st).tail.length =
      if st.tail.length + beat.length < 16 then st.tail.length + beat.length else st.tail.length + beat.length - 16 := by
  split
  · rw [includeState_append beat st ‹_›]; simp
  · rw [includeState_complete beat st (by omega)]; simp [refillTail, splitPoint, Config.blockBytes]; omega

/-- The digest does not read `phase` (10_state R30). -/
theorem digest_congr {a b : HashState} (h : a.AgreeButPhase b) : a.digest = b.digest := by
  obtain ⟨h1, h2, ht, htl⟩ := h
  simp [HashState.digest, HashState.accumulators, h1, h2, ht, htl]

/-- INCLUDE does not read `phase` (10_state R30): it takes engine states that agree but in `phase` to equal ones. -/
theorem includeState_congr {a b : HashState} (beat : List Byte) (h : a.AgreeButPhase b) : includeState beat a = includeState beat b := by
  obtain ⟨h1, h2, ht, htl⟩ := h
  simp [includeState, HashState.tailLen, HashState.accumulators, h1, h2, ht, htl]

/-- Agreement but in `phase` composes. -/
theorem agreeButPhase_trans {a b c : HashState} (h : a.AgreeButPhase b) (h' : b.AgreeButPhase c) : a.AgreeButPhase c :=
  ⟨h.1.trans h'.1, h.2.1.trans h'.2.1, h.2.2.1.trans h'.2.2.1, h.2.2.2.trans h'.2.2.2⟩

end Sys2Proof.Machine
end

