-- ==== Sys2Proof/Laws/PerInstr.lean ====
section
/-! SUPPORT. The per-instruction family `AssembledFields`: the word of a well-formed command carries its class's OP, and zero in RSVD and
in every field its class does not use (spec 30_encoding R64, R68, R73). One lemma per constructor. -/

namespace Sys2Proof.Laws.AssembledFields

/-- The OP of a command's class (30_encoding R68). -/
def opOf : Instr → BitVec 2
  | .reset _ => 0b01
  | .includeBeat _ => 0b10
  | .finalize => 0b11
  | .illegalOp0 => 0b00
  | .illegalIncludeLen _ => 0b10

/-- The LEN field of a command's word (30_encoding R73): the byte count of an INCLUDE, the length of an illegal one, else zero. -/
def lenOf : Instr → Nat
  | .reset _ => 0
  | .includeBeat beat => beat.length
  | .finalize => 0
  | .illegalOp0 => 0
  | .illegalIncludeLen len => len.toNat

/-- The SEED field of a command's word: RESET's seed, else zero. -/
def seedOf : Instr → BitVec 32
  | .reset seed => seed
  | .includeBeat _ => 0
  | .finalize => 0
  | .illegalOp0 => 0
  | .illegalIncludeLen _ => 0

/-- The word of a well-formed command has the class's OP, its operands in their fields, and zero in RSVD and the unused fields. -/
def Statement (i : Instr) : Prop :=
  i.wellFormed = true →
    cmdOp (encode i).cmd = opOf i ∧ (cmdLen (encode i).cmd).toNat = lenOf i ∧ cmdRsvd (encode i).cmd = 0 ∧ cmdSeed (encode i).cmd = seedOf i

/-- The four fields from the word's number. -/
theorem fields_of_toNat {i : Instr} {n : Nat} (h : (encode i).cmd.toNat = n)
    (hf : n % 4 = (opOf i).toNat ∧ n / 4 % 32 = lenOf i ∧ n / 128 % 2 = 0 ∧ n / 256 % 2 ^ 32 = (seedOf i).toNat) : Statement i := by
  intro _
  subst h
  exact ⟨BitVec.eq_of_toNat_eq (by rw [cmdOp_toNat, hf.1]), by rw [cmdLen_toNat, hf.2.1],
    BitVec.eq_of_toNat_eq (by rw [cmdRsvd_toNat, hf.2.2.1]; rfl), BitVec.eq_of_toNat_eq (by rw [cmdSeed_toNat, hf.2.2.2])⟩

theorem reset (seed : BitVec 32) : Statement (.reset seed) := by
  have := seed.isLt
  refine fields_of_toNat (encode_reset_toNat seed) ?_
  exact ⟨show _ = 1 by omega, show _ = 0 by omega, by omega, show _ = seed.toNat by omega⟩

theorem includeBeat (beat : List Byte) : Statement (.includeBeat beat) := by
  intro h
  have hb : beat.length ≤ 16 := by simpa [Instr.wellFormed] using h
  refine fields_of_toNat (encode_includeBeat_toNat beat hb) ?_ h
  exact ⟨show _ = 2 by omega, show _ = beat.length by omega, by omega, show _ = 0 by omega⟩

theorem finalize : Statement .finalize := fun _ => by decide

theorem illegalOp0 : Statement .illegalOp0 := fun _ => by decide

theorem illegalIncludeLen (len : BitVec 5) : Statement (.illegalIncludeLen len) := by
  have := len.isLt
  refine fields_of_toNat (encode_illegalIncludeLen_toNat len) ?_
  exact ⟨show _ = 2 by omega, show _ = len.toNat by omega, by omega, show _ = 0 by omega⟩

end Sys2Proof.Laws.AssembledFields
end

