-- ==== Sys2Proof/Laws/Run.lean ====
section
/-! SUPPORT. What `exec`, `execAll`, `step` and the pseudo-instructions can do, said once: every command ends in a next state, with one new
response, and both its engine state and its response are functions of the engine state before it (spec 20_memory R50). -/

namespace Sys2Proof.Machine

/-- Everything `exec` can do: a next state whose engine state and single new response depend on the engine state alone. -/
theorem exec_shape (i : Instr) :
    ∃ (f : HashState → HashState) (g : HashState → Response),
      ∀ s : State, exec i s = .next { st := f s.st, pending := s.pending, responses := s.responses ++ [g s.st] } := by
  cases i
  case reset seed => exact ⟨fun _ => seededState seed, fun _ => ⟨.ok, none, .fresh⟩, fun s => rfl⟩
  case includeBeat beat =>
    exact ⟨includeState beat, fun _ => ⟨.ok, none, .accumulating⟩, fun s => by simp [exec, execIncludeBeat, complete, respond]⟩
  case finalize => exact ⟨finalizeState, fun st => ⟨.ok, some st.digest, .finalized⟩, fun s => rfl⟩
  case illegalOp0 => exact ⟨id, fun st => ⟨.invalidArgument, none, st.phase⟩, fun s => rfl⟩
  case illegalIncludeLen len => exact ⟨id, fun st => ⟨.invalidArgument, none, st.phase⟩, fun s => rfl⟩

/-- Everything a sequence of commands can do: a next state, with one new response per command. -/
theorem execAll_shape (is : List Instr) :
    ∃ (f : HashState → HashState) (g : HashState → List Response),
      ∀ s : State, execAll is s = .next { st := f s.st, pending := s.pending, responses := s.responses ++ g s.st } ∧
        (g s.st).length = is.length := by
  induction is with
  | nil => exact ⟨id, fun _ => [], fun s => by simp [execAll]⟩
  | cons i is ih =>
    obtain ⟨f, g, h⟩ := ih
    obtain ⟨f1, g1, h1⟩ := exec_shape i
    refine ⟨fun st => f (f1 st), fun st => g1 st :: g (f1 st), fun s => ?_⟩
    simp [execAll, h1, h, (h ⟨f1 s.st, [], []⟩).2]

/-- A sequence of commands runs through its first part. -/
theorem execAll_append (is js : List Instr) (s s' : State) (h : execAll is s = .next s') : execAll (is ++ js) s = execAll js s' := by
  induction is generalizing s with
  | nil => simp [execAll] at h; simp [h]
  | cons i is ih =>
    obtain ⟨f1, g1, h1⟩ := exec_shape i
    simp only [execAll, h1, List.cons_append] at h ⊢
    exact ih _ h

/-- Everything a step can do, for every PARAM_RESET_SEED: the state itself, one decoded command, or hardware reset. -/
theorem stepWith_cases (seed : BitVec 32) (s : State) :
    (s.pending = [] ∧ stepWith seed s = .next s) ∨
      (∃ w rest, s.pending = .command w :: rest ∧ stepWith seed s = exec (decode w) { s with pending := rest }) ∨
        ∃ p rest, s.pending = .rst p :: rest ∧ stepWith seed s = .next (hardwareReset seed { s with pending := rest }) := by
  rcases nextEvent_cases s with ⟨hp, hn⟩ | ⟨e, rest, hp, hn⟩
  · exact .inl ⟨hp, by simp [stepWith, hn]⟩
  · cases e with
    | command w => exact .inr (.inl ⟨w, rest, hp, by simp [stepWith, hn]⟩)
    | rst p => exact .inr (.inr ⟨p, rest, hp, by simp [stepWith, hn]⟩)

/-- Every step ends in a next state (60_exceptions R163). -/
theorem stepWith_total (seed : BitVec 32) (s : State) : ∃ s', stepWith seed s = .next s' := by
  rcases stepWith_cases seed s with ⟨_, h⟩ | ⟨w, rest, _, h⟩ | ⟨p, rest, _, h⟩
  · exact ⟨s, h⟩
  · obtain ⟨f, g, hf⟩ := exec_shape (decode w)
    exact ⟨_, h.trans (hf _)⟩
  · exact ⟨_, h⟩

/-- The host's machine is the platform's machine for this hardware's PARAM_RESET_SEED. -/
theorem core_eq : Sys2Proof.core = coreWith Config.paramResetSeed := rfl

/-- One step of a run. -/
theorem run_succ (seed : BitVec 32) (k : Nat) (s s' : State) (h : stepWith seed s = .next s') :
    (coreWith seed).run (k + 1) s = (coreWith seed).run k s' := by
  have h : (coreWith seed).step s = .next s' := h
  simp only [Host.Core.run, h]

/-- How many beats are made (30_encoding R74). -/
theorem beatsFrom_length (k : Nat) (bytes : List Byte) : (beatsFrom k bytes).length = k := by
  induction k generalizing bytes with
  | zero => rfl
  | succ k ih => simp [beatsFrom, ih]

/-- Beat `j` holds the bytes from `16j` on, 16 of them where there are so many (30_encoding R74). -/
theorem beatsFrom_getElem? (k j : Nat) (bytes : List Byte) (h : j < k) :
    (beatsFrom k bytes)[j]? = some ((bytes.drop (16 * j)).take 16) := by
  induction k generalizing bytes j with
  | zero => omega
  | succ k ih =>
    cases j with
    | zero => simp [beatsFrom]
    | succ j =>
      simp only [beatsFrom, List.getElem?_cons_succ]
      rw [ih j _ (by omega)]
      simp; congr 2; omega

end Sys2Proof.Machine
end

