-- ==== Sys2Proof/Tests/Slice0.lean ====
section
/-! SUPPORT. The model's own tests: the well-formedness smoke test, words of the spec's tables through the decoder, one or two single steps per
command with results from spec/95_test_vectors.md, and for every statement with hypotheses a witness that meets them. -/

namespace Sys2Proof.Tests

open Sys2Proof Sys2Proof.Machine

/-- The bytes `0..n-1` of 95_test_vectors, as hexadecimal counts up. -/
def upTo (n : Nat) : List Byte := (List.range n).map (BitVec.ofNat 8)

/-- A state with given accumulators, tail and count, in phase ACC, with nothing presented or answered. -/
def acc (h : Word) (tail : List Byte) (total : Word) : State :=
  { st := { h1 := h, h2 := h, totalLength := total, tail := tail, phase := .accumulating }, pending := [], responses := [] }

/-- The engine state and the last response of a next state, for comparing a few fields. -/
def outcome : Host.Outcome State Fault Refusal → Option (HashState × Option Response)
  | .next s => some (s.st, s.responses.getLast?)
  | .fault _ => none
  | .refused _ => none

/-! ### Well-formedness: one ill-formed term per check -/

theorem test_beat_of_16_is_wellFormed : (Instr.includeBeat (upTo 16)).wellFormed = true := by decide
theorem test_beat_of_17_is_refused : (Instr.includeBeat (upTo 17)).wellFormed = false := by decide
theorem test_illegal_len_17_is_wellFormed : (Instr.illegalIncludeLen 17).wellFormed = true := by decide
theorem test_illegal_len_16_is_refused : (Instr.illegalIncludeLen 16).wellFormed = false := by decide

/-! ### Decoding words written out from 30_encoding R61, R73 and 95_test_vectors V35, P1 -/

/-- `RESET -1`: SEED = 32 ones, RSVD 0, LEN 00000, OP 01 (30_encoding R73). -/
theorem test_decode_reset : decode ⟨0b1111111111111111111111111111111100000001, 0⟩ = .reset 0xffffffff := by decide
/-- V35: `0x00000001fd` is RESET with SEED 1, LEN 31 and RSVD ignored. -/
theorem test_decode_reset_ignores_len : decode ⟨0b0000000000000000000000000000000111111101, 0⟩ = .reset 1 := by decide
/-- `INCLUDE "hel"`: LEN 00011, OP 10 (30_encoding R73). -/
theorem test_decode_include : decode ⟨0b0000000000000000000000000000000000001110, 0x6c6568⟩ = .includeBeat [0x68, 0x65, 0x6c] := by decide
/-- V35: LEN 16 is legal. -/
theorem test_decode_include_16 : decode ⟨0x42, 0x0f0e0d0c0b0a09080706050403020100⟩ = .includeBeat (upTo 16) := by decide
/-- V35: `0xabcdef12ff` is FINALIZE. -/
theorem test_decode_finalize : decode ⟨0xabcdef12ff, 0⟩ = .finalize := by decide
/-- V35: `0xffffffff00` is illegal, the other bits irrelevant. -/
theorem test_decode_illegal_op0 : decode ⟨0xffffffff00, 0⟩ = .illegalOp0 := by decide
/-- V35: `0x00000000c6`, INCLUDE with LEN 17 and RSVD 1, is illegal. -/
theorem test_decode_illegal_len : decode ⟨0xc6, 0⟩ = .illegalIncludeLen 17 := by decide
/-- The opcode table's numbering of a command with zero operands, and with its DATA above the command word. -/
theorem test_decodeTableWord : decodeTableWord 40 0x0000000302 = some (.includeBeat []) ∧
    decodeTableWord 168 (0x61 * 2 ^ 40 + 0x06) = some (.includeBeat [0x61]) := by decide

/-! ### Single steps, results from 95_test_vectors -/

/-- V19: `RESET 0x80000000` sign-extends. -/
theorem test_reset_sign_extends :
    (outcome (exec (.reset 0x80000000) (acc 5 (upTo 3) 19))).map Prod.fst =
      some { h1 := 0xffffffff80000000, h2 := 0xffffffff80000000, totalLength := 0, tail := [], phase := .fresh } := by decide

/-- V28: tail of 15, beat of 16; lane 0 completes the block and lanes 1 to 15 are the new tail. -/
theorem test_include_largest_split :
    (outcome (exec (.includeBeat ((upTo 31).drop 15)) (acc 0 (upTo 15) 15))).map Prod.fst =
      some { h1 := 0xdcac505ea5c458df, h2 := 0x72927c4be244042d, totalLength := 31, tail := (upTo 31).drop 16, phase := .accumulating } := by
  decide

/-- V38: the counter wraps from 2^64 - 1 to 0 with status OK. -/
theorem test_include_count_wraps :
    outcome (exec (.includeBeat [0x00]) (acc 0 [] 0xffffffffffffffff)) =
      some ({ h1 := 0, h2 := 0, totalLength := 0, tail := [0x00], phase := .accumulating }, some ⟨.ok, none, .accumulating⟩) := by decide

/-- V45 (an 8-byte tail, byte 7 at bits 63:56): "hello wo" with seed 4. -/
theorem test_finalize_byte7 :
    (outcome (exec .finalize (acc 4 [0x68, 0x65, 0x6c, 0x6c, 0x6f, 0x20, 0x77, 0x6f] 8))).map Prod.snd =
      some (some ⟨.ok, some ⟨0x79f6305a386c572c, 0x46305aed3483b94e⟩, .finalized⟩) := by decide

/-- V32: fifteen bytes 0xff. -/
theorem test_finalize_longest_tail :
    (outcome (exec .finalize (acc 0 (List.replicate 15 0xff) 15))).map Prod.snd =
      some (some ⟨.ok, some ⟨0x2c9d1a48cb13ee54, 0x080e9aebb4723701⟩, .finalized⟩) := by decide

/-- P3 step 2: the all-zero word changes nothing. -/
theorem test_illegal_op0 :
    outcome (exec .illegalOp0 (acc 0 [0x00] 1)) = some ((acc 0 [0x00] 1).st, some ⟨.invalidArgument, none, .accumulating⟩) := by decide

/-- P3 step 3: INCLUDE with LEN 17 changes nothing. -/
theorem test_illegal_len :
    outcome (exec (.illegalIncludeLen 17) (acc 0 [0x00] 1)) = some ((acc 0 [0x00] 1).st, some ⟨.invalidArgument, none, .accumulating⟩) := by
  decide

/-- A word placed at reset is the first command executed (V6 after `RESET 1` needs no program in `State.reset`). -/
theorem test_placed_word_runs_after_reset :
    outcome (step (State.reset.withFetchWord 40 0x101)) =
      some ({ h1 := 1, h2 := 1, totalLength := 0, tail := [], phase := .fresh }, some ⟨.ok, none, .fresh⟩) := by decide

/-- V39: `RST` gives FRESH and no response. -/
theorem test_rst_gives_no_response :
    outcome (step { acc 7 (upTo 3) 19 with pending := [.rst (some ⟨0x03, 0⟩)] }) = some (State.reset.st, none) := by decide

/-- R180 on a platform that sets PARAM_RESET_SEED to 0x80000000: `RST` leaves V19's sign-extended state. -/
theorem test_rst_applies_the_parameter :
    outcome (stepWith 0x80000000 { acc 7 (upTo 3) 19 with pending := [.rst none] }) =
      some ({ h1 := 0xffffffff80000000, h2 := 0xffffffff80000000, totalLength := 0, tail := [], phase := .fresh }, none) := by decide

/-- 30_encoding R73's example and R72's text form. -/
theorem test_assemble_hel :
    parseLine ['I', 'N', 'C', 'L', 'U', 'D', 'E', ' ', '"', 'h', 'e', 'l', '"', ' ', ';', 'x'] = some (some (.includeText [0x68, 0x65, 0x6c])) ∧
      assemble (.includeText [0x68, 0x65, 0x6c]) = some ⟨0x000000000e, 0x6c6568⟩ := by decide

/-- 30_encoding R72: `RESET -1` and `RESET 0xffffffff` assemble to the same word. -/
theorem test_assemble_reset_minus_one :
    parseLine ['R', 'E', 'S', 'E', 'T', ' ', '-', '1'] = some (some (.reset (.dec (-1)))) ∧
      assemble (.reset (.dec (-1))) = some ⟨0xffffffff01, 0⟩ ∧ assemble (.reset (.hex 0xffffffff)) = some ⟨0xffffffff01, 0⟩ := by decide

/-! ### Witnesses: states and operands that meet a statement's hypotheses, at the boundary of each clause -/

theorem witness_ResetReinitialisesFromSeed : (0xffffffff01 : BitVec 40).extractLsb' 0 2 = 0b01 := by decide
theorem witness_SeedWideningCopiesBit31 : (31 : Nat) < 64 ∧ (63 : Nat) < 64 := by decide
theorem witness_PhaseTransitions : ({ acc 7 [] 0 with pending := [.rst none] } : State).pending = .rst none :: [] := by decide
theorem witness_IncludeAbsorbsBeat :
    ((0x46 : BitVec 40).extractLsb' 0 2 = 0b10 ∧ 17 ≤ ((0x46 : BitVec 40).extractLsb' 2 5).toNat) ∧
    ((0x42 : BitVec 40).extractLsb' 0 2 = 0b10 ∧ ((0x42 : BitVec 40).extractLsb' 2 5).toNat ≤ 16) ∧
    ((upTo 0).length ≤ 16 ∧ (acc 0 (upTo 15) 15).st.tail.length + (upTo 0).length < 16) ∧
    ((upTo 1).length ≤ 16 ∧ ¬ (acc 0 (upTo 15) 15).st.tail.length + (upTo 1).length < 16) ∧
    ((upTo 16).length ≤ 16 ∧ ¬ (acc 0 [] 0).st.tail.length + (upTo 16).length < 16) := by decide
theorem witness_FinalizeReturnsDigest : (0x0000000003 : BitVec 40).extractLsb' 0 2 = 0b11 := by decide
theorem witness_IllegalWordsAnswerInvalidArgument :
    17 ≤ (17 : BitVec 5).toNat ∧ 17 ≤ (31 : BitVec 5).toNat ∧ (decode ⟨0x46, 0⟩).isLegal = false ∧ (decode ⟨0x42, 0⟩).isLegal = true := by
  decide
theorem witness_CommandFrames :
    exec .finalize State.reset = .next (complete (finalizeState State.reset.st) (some State.reset.st.digest) State.reset) ∧
    exec (.includeBeat []) (acc 0 (upTo 15) 15) = .next (complete (includeState [] (acc 0 (upTo 15) 15).st) none (acc 0 (upTo 15) 15)) ∧
    (acc 0 (upTo 15) 15).st.tail.length + ([] : List Byte).length < 16 := ⟨rfl, rfl, by decide⟩
theorem witness_BlockAssembledLaneByLane :
    ((upTo 15).length ≤ 15 ∧ 16 ≤ (upTo 15).length + (upTo 1).length ∧ 14 < (upTo 15).length ∧ ¬ 15 < (upTo 15).length) ∧
    (upTo 0).length ≤ 15 ∧ 16 ≤ (upTo 0).length + (upTo 16).length := by decide
theorem witness_TailPathsEntryByEntry :
    ((upTo 14).length ≤ 16 ∧ (acc 0 (upTo 1) 1).st.tail.length ≤ 15 ∧ (acc 0 (upTo 1) 1).st.tail.length + (upTo 14).length ≤ 15) ∧
    ((upTo 16).length ≤ 16 ∧ (acc 0 (upTo 15) 15).st.tail.length ≤ 15 ∧ 16 ≤ (acc 0 (upTo 15) 15).st.tail.length + (upTo 16).length) ∧
    (upTo 15).length ≤ 16 ∧ (acc 0 (upTo 1) 1).st.tail.length ≤ 15 ∧ 16 ≤ (acc 0 (upTo 1) 1).st.tail.length + (upTo 15).length := by decide
theorem witness_IncludeCountsModulo2Pow64 : (upTo 16).length ≤ 16 := by decide
theorem witness_EmptyBeatOnlyMovesPhase : (acc 0 (upTo 15) 15).st.tail.length ≤ 15 := by decide
theorem witness_BlockMixStepByStep : (upTo 16).length = 16 := by decide
theorem witness_BlockMixStarFolds : (upTo 16).length = 16 ∧ (upTo 32).length % 16 = 0 ∧ ([] : List Byte).length % 16 = 0 := by decide
theorem witness_RotlMovesEveryBit : 0 < 1 ∧ 1 < 64 ∧ 63 < 64 ∧ 0 < 63 ∧ 63 < 64 := by decide
theorem witness_Le64PlacesBytes : (upTo 8).length ≤ 8 ∧ (upTo 0).length ≤ 8 ∧ 63 < 64 := by decide
theorem witness_TailPackingIsLittleEndian :
    (upTo 15).length ≤ 15 ∧ (upTo 15)[7]? = some 7 ∧ (upTo 15)[8]? = some 8 ∧ (upTo 15)[14]? = some 14 ∧ 7 < 8 := by decide
theorem witness_TailPackingOrderImmaterial : (upTo 15).length ≤ 15 ∧ (upTo 15).zipIdx.reverse.Perm (upTo 15).zipIdx :=
  ⟨by decide, List.reverse_perm _⟩
theorem witness_TailMixingForms :
    (upTo 0).length ≤ 15 ∧ (upTo 8).length ≤ 15 ∧ ¬ 9 ≤ (upTo 8).length ∧ (upTo 9).length ≤ 15 ∧ 9 ≤ (upTo 9).length ∧ (upTo 15).length ≤ 15 := by
  decide
theorem witness_EightByteTailMixesOnlyK1 : (upTo 8).length = 8 := by decide
theorem witness_PhaseNeverInfluences :
    State.reset.st.AgreeButPhase (acc 0 [] 0).st ∧ State.reset.st ≠ (acc 0 [] 0).st ∧
      State.reset.responses.map Response.reply = (acc 0 [] 0).responses.map Response.reply := by decide
theorem witness_FinalizeIdempotent :
    (acc 0 (upTo 15) 15).st.tail.length ≤ 15 ∧ ∀ i ∈ [Instr.includeBeat [], .illegalOp0, .illegalIncludeLen 17, .finalize], keepsStream i = true := by
  decide
theorem witness_StreamBeatsSplitInOrder :
    (streamBeats (upTo 17))[0]? = some (upTo 16) ∧ (streamBeats (upTo 17))[1]? = some [16] ∧ (streamBeats (upTo 16))[0]? = some (upTo 16) := by
  decide
theorem witness_AbsorbIgnoresTheSplit : (acc 0 (upTo 15) 15).st.tail.length ≤ 15 ∧ ∀ b ∈ [upTo 16, [], upTo 1], b.length ≤ 16 := by decide
theorem witness_ChunkInvariance : State.reset.st.Represents ⟨0, []⟩ ∧ ∀ b ∈ [upTo 16, [], upTo 1], b.length ≤ 16 := ⟨rfl, by decide⟩
theorem witness_FinalizeReflectsCommandsBefore :
    State.reset.st.Represents ⟨0, []⟩ ∧ ∀ i ∈ [Instr.reset 1, .includeBeat (upTo 16), .finalize, .illegalOp0, .illegalIncludeLen 17], i.wellFormed = true :=
  ⟨rfl, by decide⟩
theorem witness_StepRunsDecodedCommand : (State.reset.withFetchWord 40 3).pending = .command ⟨3, 0⟩ :: [] := by decide
theorem witness_RstResetsWithoutResponse :
    ({ acc 7 [] 0 with pending := [.rst none] } : State).pending = .rst none :: [] ∧
      ({ acc 7 [] 0 with pending := [.rst (some ⟨3, 0⟩)] } : State).pending = .rst (some ⟨3, 0⟩) :: [] := by decide
theorem witness_RstLeavesPresentedEvents :
    ({ acc 7 [] 0 with pending := [.rst (some ⟨3, 0⟩), .command ⟨1, 0⟩] } : State).pending = .rst (some ⟨3, 0⟩) :: [.command ⟨1, 0⟩] := by decide
theorem witness_IdleKeepsState : State.reset.pending = [] := by decide
theorem witness_RunIsCommandsInOrder :
    ({ acc 0 [] 0 with pending := [.command ⟨6, 0x61⟩, .command ⟨3, 0⟩, .rst none] } : State).pending = presented [⟨6, 0x61⟩, ⟨3, 0⟩] ++ [.rst none] := by
  decide
theorem witness_UnusedFieldsIgnored :
    (cmdOp 0x1234567886 = cmdOp 0x06 ∧ cmdLen 0x1234567886 = cmdLen 0x06 ∧ ∀ j < (cmdLen 0x1234567886).toNat, j < 16 → lane 0xff61 j = lane 0x61 j) ∧
    (cmdOp 0x00000001fd = cmdOp 0x0000000101 ∧ cmdSeed 0x00000001fd = cmdSeed 0x0000000101) ∧ cmdOp 0xabcdef12ff = cmdOp 0x03 := by decide
theorem witness_DecodeEncodeRoundTrip :
    (Instr.reset 0xffffffff).wellFormed = true ∧ (Instr.includeBeat (upTo 16)).wellFormed = true ∧ (Instr.includeBeat []).wellFormed = true ∧
      Instr.finalize.wellFormed = true ∧ Instr.illegalOp0.wellFormed = true ∧ (Instr.illegalIncludeLen 31).wellFormed = true := by decide
theorem witness_EncodeKeepsUsedFields :
    cmdOp 0xffffffff01 = 0b01 ∧ (cmdOp 0x42 = 0b10 ∧ (cmdLen 0x42).toNat ≤ 16 ∧ 15 < (cmdLen 0x42).toNat) ∧
      cmdOp 0x46 = 0b10 ∧ ¬ (cmdLen 0x46).toNat ≤ 16 := by decide
theorem witness_AssemblerEncodes :
    (-2147483648 : Int) ≤ -2147483648 ∧ (2147483647 : Int) ≤ 2147483647 ∧ (upTo 16).length ≤ 16 ∧ 16 < (upTo 17).length := by decide
theorem witness_StepKeepsInvariant :
    State.reset.Inv ∧ step State.reset = .next State.reset ∧ stepWith 1 State.reset = .next State.reset := ⟨⟨by decide, by decide⟩, rfl, rfl⟩
theorem witness_StepKeepsStreamInvariant : (State.resetWith 1).st.Represents ⟨1, []⟩ := rfl
theorem witness_StreamInvariantFields : (acc 0 [0x61] 1).st.Represents ⟨0, [0x61]⟩ := by unfold HashState.Represents; decide
theorem witness_StreamInvariantAfterEveryCommand :
    ({ acc 0 [] 0 with st := (State.resetWith 0x80000000).st } : State).st = (State.resetWith 0x80000000).st ∧
      ∀ i ∈ [Instr.includeBeat (upTo 16), .finalize, .illegalOp0, .reset 0x80000000, .includeBeat [], .illegalIncludeLen 31], i.wellFormed = true := by
  decide
theorem witness_HashOneShotComputesDigest :
    ({ acc 9 (upTo 3) 3 with pending := presented ((hashOneShot (upTo 17) 1).map encode) } : State).pending =
      presented ((hashOneShot (upTo 17) 1).map encode) := rfl
theorem witness_InstancesAreIndependent :
    (0 : Nat) ≠ 1 ∧ (Platform.reset 1 2)[0]? = some (State.resetWith 1) ∧ stepWith 1 (State.resetWith 1) = .next (State.resetWith 1) ∧ (Platform.reset 1 2)[2]? = none :=
  ⟨by decide, rfl, rfl, rfl⟩
theorem witness_ObservationIsDetermined :
    State.reset.st = ({ State.reset with responses := [⟨.ok, none, .fresh⟩] } : State).st ∧
      State.reset.pending = ({ State.reset with responses := [⟨.ok, none, .fresh⟩] } : State).pending := by decide
theorem witness_RunStartsMeetInvariant : State.reset.IsRunStart ∧ (acc 0 [0x61] 1).IsRunStart :=
  ⟨.inl ⟨0, rfl⟩, .inr ⟨⟨0, [0x61]⟩, witness_StreamInvariantFields⟩⟩

end Sys2Proof.Tests
end

section
/-! PROOFS. The bits of the operand forms (spec 00_scope R9, R12): rotation and little-endian words. -/

namespace Sys2Proof.Machine

/-- From bit `r` on a rotation by `r` holds the low bits moved up; below `r`, the top `r` bits wrapped round (00_scope R9). -/
theorem getLsbD_rotl64 (x : Word) (r k : Nat) (hk : k < 64) :
    (rotl64 x r).getLsbD k = if r ≤ k then x.getLsbD (k - r) else x.getLsbD (64 - r + k) := by
  simp only [rotl64, BitVec.getLsbD_or, BitVec.getLsbD_shiftLeft, BitVec.getLsbD_ushiftRight, hk]
  split
  case isTrue h =>
    have hnoWrap : x.getLsbD (64 - r + k) = false := BitVec.getLsbD_of_ge _ _ (by omega)
    simp [hnoWrap, Nat.not_lt.mpr h]
  case isFalse h => simp [Nat.not_le.mp h]

/-- Settles O19: `k - r` modulo 64 is `k - r` from bit `r` on, and `64 - r + k` below it. -/
theorem rotlMovesEveryBit : Obligations.RotlMovesEveryBit := by
  intro x r k _ _ hk
  rw [getLsbD_rotl64 x r k hk]
  split
  case isTrue h => rw [show (k + 64 - r) % 64 = k - r by omega]
  case isFalse h => rw [show (k + 64 - r) % 64 = 64 - r + k by omega]

/-- Bit `k` of the terms of `LE64` from byte position `i` on: that of the byte whose field holds `k`, zero below position `i`
and above the last byte (00_scope R12). -/
theorem getLsbD_le64From (i : Nat) (bytes : List Byte) (k : Nat) (hk : k < 64) :
    (le64From i bytes).getLsbD k =
      (decide (i ≤ k / 8) && ((bytes[k / 8 - i]?).map (fun b => b.getLsbD (k % 8))).getD false) := by
  induction bytes generalizing i with
  | nil => simp
  | cons b bs ih =>
    rw [le64From_cons, BitVec.getLsbD_or, getLsbD_zext64_shift b _ k hk, ih]
    obtain hlt | heq | hgt := Nat.lt_trichotomy (k / 8) i
    · have hbelow : ¬ 8 * i ≤ k := by omega
      simp [hbelow, show ¬ i ≤ k / 8 by omega, show ¬ i + 1 ≤ k / 8 by omega]
    · have hin : 8 * i ≤ k ∧ k < 8 * i + 8 := by omega
      simp [hin, heq, show k - 8 * i = k % 8 by omega]
    · have habove : ¬ k < 8 * i + 8 := by omega
      have hnext : k / 8 - i = (k / 8 - (i + 1)) + 1 := by omega
      simp [habove, hnext, show i ≤ k / 8 by omega, show i + 1 ≤ k / 8 by omega]

/-- Settles O20: `LE64` is the terms from byte position 0 on. -/
theorem le64PlacesBytes : Obligations.Le64PlacesBytes := by
  intro bytes _ k hk
  simp [le64, getLsbD_le64From 0 bytes k hk]

end Sys2Proof.Machine
end

section
/-! PROOFS. What one command does, written as two functions of the engine's state before it: the engine's state after it and the
response to it (spec 30_encoding R69, 20_memory R47). -/

namespace Sys2Proof.Machine

/-- The engine's state after a command. `exec_eq` ties it to `exec`. -/
def engineAfter : Instr → HashState → HashState
  | .reset seed, _ => seededState seed
  | .includeBeat beat, st => includeState beat st
  | .finalize, st => finalizeState st
  | .illegalOp0, st => st
  | .illegalIncludeLen _, st => st

/-- The one response to a command. `exec_eq` ties it to `exec`. -/
def responseTo : Instr → HashState → Response
  | .reset _, _ => { status := .ok, digest := none, phase := .fresh }
  | .includeBeat _, _ => { status := .ok, digest := none, phase := .accumulating }
  | .finalize, st => { status := .ok, digest := some st.digest, phase := .finalized }
  | .illegalOp0, st => { status := .invalidArgument, digest := none, phase := st.phase }
  | .illegalIncludeLen _, st => { status := .invalidArgument, digest := none, phase := st.phase }

/-- The machine after a command has been executed. -/
def machineAfter (i : Instr) (s : State) : State :=
  { st := engineAfter i s.st, pending := s.pending, responses := s.responses ++ [responseTo i s.st] }

@[simp] theorem machineAfter_st (i : Instr) (s : State) : (machineAfter i s).st = engineAfter i s.st := rfl
@[simp] theorem machineAfter_responses (i : Instr) (s : State) :
    (machineAfter i s).responses = s.responses ++ [responseTo i s.st] := rfl

/-- Every command has its meaning: it ends in the next state of `machineAfter`. -/
theorem exec_eq (i : Instr) (s : State) : exec i s = .next (machineAfter i s) := by
  cases i with
  | includeBeat beat => simp [exec, execIncludeBeat, complete, respond, machineAfter, engineAfter, responseTo]
  | reset | finalize | illegalOp0 | illegalIncludeLen => rfl

/-- A sequence of commands goes on from the machine after its first one (20_memory R50). -/
theorem execAll_cons (i : Instr) (is : List Instr) (s : State) : execAll (i :: is) s = execAll is (machineAfter i s) := by
  simp [execAll, exec_eq]

/-- The decoder only yields commands that a word can stand for (30_encoding R62, R70). -/
theorem decode_isWellFormed (w : PortWord) : (decode w).wellFormed = true := by
  obtain h | ⟨h, hlen⟩ | h | h | ⟨h, hlen⟩ := cmd_cases w.cmd
  · rw [decode_reset h]; rfl
  · rw [decode_includeBeat h hlen]; simpa [Instr.wellFormed] using hlen
  · rw [decode_finalize h]; rfl
  · rw [decode_illegalOp0 h]; rfl
  · rw [decode_illegalIncludeLen h hlen]; simpa [Instr.wellFormed] using hlen

/-- A well-formed INCLUDE carries at most 16 bytes (30_encoding R62). -/
theorem length_le_of_wellFormed {beat : List Byte} (h : (Instr.includeBeat beat).wellFormed = true) : beat.length ≤ 16 := by
  simpa [Instr.wellFormed] using h

end Sys2Proof.Machine
end

section
/-! PROOFS. The machine's invariant (spec 10_state R25, R27; 30_encoding R66): it holds at reset and every step keeps it. -/

namespace Sys2Proof.Machine

theorem seededState_inv (seed : BitVec 32) : (seededState seed).Inv := by simp [HashState.Inv, HashState.tailLen]

/-- A beat of at most 16 bytes moves `tail_len` and `total_length` alike modulo 16; the counter's wrap is a multiple of 16. -/
theorem includeState_inv {beat : List Byte} {st : HashState} (hbeat : beat.length ≤ 16) (h : st.Inv) :
    (includeState beat st).Inv := by
  obtain ⟨hle, hmod⟩ := h
  simp only [HashState.tailLen, tailCapacity_eq, blockBytes_eq] at hle hmod
  have htotal : (includeState beat st).totalLength.toNat = (st.totalLength.toNat + beat.length) % 2 ^ 64 := by
    simp [beatCount, BitVec.toNat_add, BitVec.toNat_ofNat]
  simp only [HashState.Inv, HashState.tailLen, tailCapacity_eq, blockBytes_eq, htotal, includeState_tail_length beat st hle]
  split <;> omega

/-- Every well-formed command keeps the engine's invariant: only INCLUDE writes `tail` or `total_length` other than to zero. -/
theorem engineAfter_inv {i : Instr} {st : HashState} (hi : i.wellFormed = true) (h : st.Inv) : (engineAfter i st).Inv := by
  cases i with
  | reset seed => exact seededState_inv seed
  | includeBeat beat => exact includeState_inv (length_le_of_wellFormed hi) h
  | finalize | illegalOp0 | illegalIncludeLen => exact h

/-- Only FINALIZE answers with a digest, and it leaves FINALIZED (30_encoding R66). -/
theorem responseTo_wellFormed (i : Instr) (st : HashState) : (responseTo i st).wellFormed = true := by
  cases i <;> rfl

theorem machineAfter_inv {i : Instr} {s : State} (hi : i.wellFormed = true) (h : s.Inv) : (machineAfter i s).Inv := by
  obtain ⟨hst, hresponses⟩ := h
  refine ⟨engineAfter_inv hi hst, fun r hr => ?_⟩
  obtain hr | hr : r ∈ s.responses ∨ r = responseTo i s.st := by simpa using hr
  · exact hresponses r hr
  · exact hr ▸ responseTo_wellFormed i s.st

/-- Every step keeps the machine's invariant, for every PARAM_RESET_SEED: what reaches `exec` comes from the decoder. -/
theorem stepWith_inv {seed : BitVec 32} {s s' : State} (h : s.Inv) (hstep : stepWith seed s = .next s') : s'.Inv := by
  obtain ⟨_, e⟩ | ⟨w, rest, _, e⟩ | ⟨_, rest, _, e⟩ := stepWith_cases seed s
  · obtain rfl : s = s' := by simpa [e] using hstep
    exact h
  · obtain rfl : machineAfter (decode w) { s with pending := rest } = s' := by simpa [e, exec_eq] using hstep
    exact machineAfter_inv (decode_isWellFormed w) h
  · obtain rfl : hardwareReset seed { s with pending := rest } = s' := by simpa [e] using hstep
    exact ⟨seededState_inv seed, h.2⟩

/-- Settles O50: this hardware's step is the platform's step for the parameter 0. -/
theorem stepKeepsInvariant : Obligations.StepKeepsInvariant :=
  ⟨fun _ _ => stepWith_inv, fun _ _ _ => stepWith_inv⟩

/-- Settles O51: nothing is counted, no tail byte is valid and no response has been delivered. -/
theorem invariantHoldsAtReset : Obligations.InvariantHoldsAtReset := by
  have h (seed : BitVec 32) : (State.resetWith seed).Inv := ⟨seededState_inv seed, by simp⟩
  exact ⟨h _, h⟩

end Sys2Proof.Machine
end

section
/-! PROOFS. The stream invariant (spec 10_state R27): the engine's state is at all times the one that the whole stream since the last
reset gives. -/

namespace Sys2Proof.Machine

/-- The stream invariant leaves the phase open. -/
theorem represents_iff {st : HashState} {x : ByteStream} : st.Represents x ↔ ∃ p, st = streamState x p :=
  ⟨fun h => ⟨st.phase, h⟩, by rintro ⟨p, rfl⟩; rfl⟩

@[simp] theorem streamState_totalLength (x : ByteStream) (p : Phase) :
    (streamState x p).totalLength = BitVec.ofNat 64 x.bytes.length := rfl
@[simp] theorem streamState_tail (x : ByteStream) (p : Phase) :
    (streamState x p).tail = x.bytes.drop (16 * (x.bytes.length / 16)) := rfl

/-- `tail_len = L mod 16` (10_state R27). -/
theorem streamState_tail_length (x : ByteStream) (p : Phase) : (streamState x p).tail.length = x.bytes.length % 16 := by
  simp; omega

/-- The empty stream gives the state after a reset (10_state R33; 43_reset R140). -/
theorem streamState_nil (seed : BitVec 32) : streamState ⟨seed, []⟩ .fresh = seededState seed := by
  simp [streamState, blockMixStar, blockMixStarFrom, seedAccumulators, seededState]

/-- The state of a stream is fixed by its accumulators, its count, its tail and the phase. -/
theorem eq_streamState {st : HashState} {x : ByteStream} {p : Phase}
    (hacc : st.accumulators = blockMixStar (seedAccumulators x.seed) x.bytes)
    (htotal : st.totalLength = BitVec.ofNat 64 x.bytes.length)
    (htail : st.tail = x.bytes.drop (16 * (x.bytes.length / 16))) (hphase : st.phase = p) : st = streamState x p := by
  obtain ⟨h1, h2, total, tail, phase⟩ := st
  simp only [HashState.accumulators] at hacc htotal htail hphase
  simp [streamState, ← hacc, htotal, htail, hphase]

/-- The bytes that follow a sequence, from the sequence's incomplete block on, are its tail and then those bytes. -/
theorem drop_blocks_append (bytes beat : List Byte) :
    (bytes ++ beat).drop (16 * (bytes.length / 16)) = bytes.drop (16 * (bytes.length / 16)) ++ beat :=
  List.drop_append_of_le_length (by omega)

/-- BlockMix* of a longer sequence with the same number of complete blocks. -/
theorem blockMixStar_append_of_same_blocks (h : Accumulators) {bytes beat : List Byte}
    (hblocks : (bytes ++ beat).length / 16 = bytes.length / 16) : blockMixStar h (bytes ++ beat) = blockMixStar h bytes := by
  simp only [blockMixStar, blockBytes_eq, hblocks]
  exact blockMixStarFrom_append _ h bytes beat (by omega)

/-- BlockMix* of a longer sequence with one more complete block: that block, made of the shorter one's tail and the first of the bytes
after it, is mixed last. -/
theorem blockMixStar_append_of_next_block (h : Accumulators) {bytes beat : List Byte}
    (hblocks : (bytes ++ beat).length / 16 = bytes.length / 16 + 1) :
    blockMixStar h (bytes ++ beat) =
      blockMix (blockMixStar h bytes) ((bytes.drop (16 * (bytes.length / 16)) ++ beat).take 16) := by
  simp only [blockMixStar, blockBytes_eq, hblocks, blockMixStarFrom_succ]
  rw [drop_blocks_append, blockMixStarFrom_append _ h bytes beat (by omega)]

/-- BlockMix* reads the complete blocks only (40_mixing_engine R87). -/
theorem blockMixStar_take_blocks (h : Accumulators) (bytes : List Byte) :
    blockMixStar h (bytes.take (16 * (bytes.length / 16))) = blockMixStar h bytes := by
  have hlen : (bytes.take (16 * (bytes.length / 16))).length = 16 * (bytes.length / 16) := by simp; omega
  conv_rhs => rw [← List.take_append_drop (16 * (bytes.length / 16)) bytes]
  exact (blockMixStar_append_of_same_blocks h (by rw [List.take_append_drop, hlen]; omega)).symm

/-- The block that a completing beat makes is the first 16 bytes available (41_include R105). -/
theorem assembleBlock_eq_take (tail beat : List Byte) (h : tail.length ≤ 16) :
    assembleBlock tail beat = (tail ++ beat).take 16 := by
  rw [List.take_append, List.take_of_length_le h]; rfl

/-- The tail that a completing beat leaves is what follows those 16 bytes (41_include R107). -/
theorem refillTail_eq_drop (tail beat : List Byte) (h : tail.length ≤ 16) : refillTail tail beat = (tail ++ beat).drop 16 := by
  rw [List.drop_append, List.drop_of_length_le h]; rfl

/-- An INCLUDE of at most 16 bytes counts its bytes; where they complete no block, they join the tail, and where they complete one, the
16 bytes after the blocks already mixed are mixed and the others are the new tail. Either way the stream that the INCLUDE extends says the
same. -/
theorem includeState_streamState (x : ByteStream) (p : Phase) {beat : List Byte} (hbeat : beat.length ≤ 16) :
    includeState beat (streamState x p) = streamState (x.after (.includeBeat beat)) .accumulating := by
  have htail := streamState_tail_length x p
  have htotal : (streamState x p).totalLength + beatCount beat = BitVec.ofNat 64 (x.bytes ++ beat).length := by
    simp [beatCount, BitVec.ofNat_add]
  by_cases happend : (streamState x p).tail.length + beat.length < 16
  · have hblocks : (x.bytes ++ beat).length / 16 = x.bytes.length / 16 := by rw [List.length_append]; omega
    rw [includeState_append _ _ happend]
    refine eq_streamState (blockMixStar_append_of_same_blocks _ hblocks).symm htotal ?_ rfl
    simp only [ByteStream.after, streamState_tail, hblocks, drop_blocks_append]
  · have hblocks : (x.bytes ++ beat).length / 16 = x.bytes.length / 16 + 1 := by rw [List.length_append]; omega
    rw [includeState_complete _ _ (by omega), assembleBlock_eq_take _ _ (by omega), refillTail_eq_drop _ _ (by omega)]
    refine eq_streamState (blockMixStar_append_of_next_block _ hblocks).symm htotal ?_ rfl
    simp only [ByteStream.after, streamState_tail, hblocks, ← drop_blocks_append, List.drop_drop, Nat.mul_succ]

/-- Every well-formed command takes a state of the stream to a state of the stream after it. -/
theorem engineAfter_represents {i : Instr} {st : HashState} {x : ByteStream} (hi : i.wellFormed = true) (h : st.Represents x) :
    (engineAfter i st).Represents (x.after i) := by
  obtain ⟨p, rfl⟩ := represents_iff.mp h
  cases i with
  | reset seed => exact represents_iff.mpr ⟨.fresh, (streamState_nil seed).symm⟩
  | includeBeat beat => exact represents_iff.mpr ⟨.accumulating, includeState_streamState x p (length_le_of_wellFormed hi)⟩
  | finalize => exact represents_iff.mpr ⟨.finalized, rfl⟩
  | illegalOp0 | illegalIncludeLen => exact h

/-- Hardware reset starts the empty stream of its seed (10_state R33). -/
theorem seededState_represents (seed : BitVec 32) : (seededState seed).Represents ⟨seed, []⟩ := (streamState_nil seed).symm

/-- Every sequence of well-formed commands runs, and takes a state of the stream to a state of the stream after them. -/
theorem execAll_represents {is : List Instr} {s : State} {x : ByteStream} (his : ∀ i ∈ is, i.wellFormed = true)
    (h : s.st.Represents x) : ∃ s', execAll is s = .next s' ∧ s'.st.Represents (is.foldl ByteStream.after x) := by
  induction is generalizing s x with
  | nil => exact ⟨s, rfl, h⟩
  | cons i is ih =>
    obtain ⟨hi, his⟩ := List.forall_mem_cons.mp his
    rw [execAll_cons]
    exact ih his (engineAfter_represents (st := s.st) hi h)

/-- Settles O52: a step is idle, one decoded command, or hardware reset. -/
theorem stepKeepsStreamInvariant : Obligations.StepKeepsStreamInvariant := by
  intro seed s x h
  obtain ⟨hp, e⟩ | ⟨w, rest, hp, e⟩ | ⟨_, rest, hp, e⟩ := stepWith_cases seed s
  · exact ⟨s, e, by rw [hp]; exact h⟩
  · exact ⟨_, e.trans (exec_eq _ _), by rw [hp]; exact engineAfter_represents (decode_isWellFormed w) h⟩
  · exact ⟨_, e, by rw [hp]; exact seededState_represents seed⟩

/-- Settles O55: field by field from `streamState`; the count's wrap is a multiple of 16, so `tail_len` is also `total_length` modulo 16. -/
theorem streamInvariantFields : Obligations.StreamInvariantFields := by
  intro st x h
  obtain ⟨p, rfl⟩ := represents_iff.mp h
  have htail : (streamState x p).tailLen = x.bytes.length % 16 := streamState_tail_length x p
  have htotal : (streamState x p).totalLength.toNat = x.bytes.length % 2 ^ 64 := by simp
  exact ⟨htail, rfl, htotal, (blockMixStar_take_blocks _ _).symm, by omega⟩

/-- Settles O53: the stream invariant holds at reset and every command keeps it, and it says what the fields are. -/
theorem streamInvariantAfterEveryCommand : Obligations.StreamInvariantAfterEveryCommand := by
  intro seed is s hs his
  have hreset : s.st.Represents ⟨seed, []⟩ := hs ▸ seededState_represents seed
  obtain ⟨s', hrun, h⟩ := execAll_represents his hreset
  exact ⟨s', hrun, streamInvariantFields s'.st _ h⟩

/-- Settles O54: the state after hardware reset is that of the empty stream. -/
theorem streamInvariantHoldsAtReset : Obligations.StreamInvariantHoldsAtReset :=
  ⟨seededState_represents _, seededState_represents⟩

end Sys2Proof.Machine
end

section
/-! PROOFS. The phase (spec 10_state R28 to R30), which no command reads for anything but `PHASE`, and the state after hardware reset
(R33). -/

namespace Sys2Proof.Machine

/-- No command's effect on the other fields depends on the phase (10_state R30). -/
theorem engineAfter_agreeButPhase (i : Instr) {a b : HashState} (h : a.AgreeButPhase b) :
    (engineAfter i a).AgreeButPhase (engineAfter i b) := by
  cases i with
  | reset seed => exact ⟨rfl, rfl, rfl, rfl⟩
  | includeBeat beat =>
    simp only [engineAfter, includeState_congr beat h]
    exact ⟨rfl, rfl, rfl, rfl⟩
  | finalize | illegalOp0 | illegalIncludeLen => exact h

/-- No command's status or digest depends on the phase (10_state R30). -/
theorem responseTo_reply_congr (i : Instr) {a b : HashState} (h : a.AgreeButPhase b) :
    (responseTo i a).reply = (responseTo i b).reply := by
  cases i with
  | finalize => simp only [responseTo, Response.reply, digest_congr h]
  | reset | includeBeat | illegalOp0 | illegalIncludeLen => rfl

/-- Settles O26, by induction on the sequence: each command keeps the agreement and adds the same reply on both sides. -/
theorem phaseNeverInfluences : Obligations.PhaseNeverInfluences := by
  intro is
  induction is with
  | nil => exact fun a b hst hreplies => ⟨a, b, rfl, rfl, hst, hreplies⟩
  | cons i is ih =>
    intro a b hst hreplies
    rw [execAll_cons, execAll_cons]
    refine ih _ _ (engineAfter_agreeButPhase i hst) ?_
    simp [hreplies, responseTo_reply_congr i hst]

/-- Settles O7: a command's phase is that of `engineAfter`, and an assertion of `RST` is hardware reset, which seeds the state. -/
theorem phaseTransitions : Obligations.PhaseTransitions := by
  refine ⟨fun i s => ⟨machineAfter i s, exec_eq i s, ?_⟩, fun seed inProgress rest s hp => ?_⟩
  · cases i with
    | includeBeat beat => exact includeState_phase beat s.st
    | reset | finalize | illegalOp0 | illegalIncludeLen => rfl
  · obtain ⟨hp', _⟩ | ⟨w, rest', hp', _⟩ | ⟨p, rest', _, e⟩ := stepWith_cases seed s
    · simp [hp] at hp'
    · simp [hp] at hp'
    · exact ⟨_, e, rfl⟩

/-- Settles O8: the three phases have the three codes below 11. -/
theorem phaseOutputEncoding : Obligations.PhaseOutputEncoding := by
  have hcode (p : Phase) : p.code ≠ 0b11 := by cases p <;> decide
  exact ⟨rfl, rfl, rfl, fun s => hcode s.st.phase⟩

/-- Settles O38: the parameter 0 sign-extends to 0. -/
theorem resetStateValues : Obligations.ResetStateValues :=
  ⟨fun _ => rfl, by decide⟩

end Sys2Proof.Machine
end

section
/-! PROOFS. The order of execution (spec 20_memory R46, R50, R51): presented commands take effect one at a time, in order, each is answered
once, and a FINALIZE sees those before it. -/

namespace Sys2Proof.Machine

/-- A state of a stream returns the stream's digest (42_finalize R126): the phase, which alone the stream leaves open, is not read. -/
theorem digest_of_represents {st : HashState} {x : ByteStream} (h : st.Represents x) : st.digest = x.digest := by
  obtain ⟨p, rfl⟩ := represents_iff.mp h
  exact digest_congr ⟨rfl, rfl, rfl, rfl⟩

/-- Every sequence of commands runs, keeps the responses delivered before it, and adds one per command (20_memory R46). -/
theorem execAll_responses (is : List Instr) (s : State) :
    ∃ s' new, execAll is s = .next s' ∧ s'.responses = s.responses ++ new ∧ new.length = is.length := by
  obtain ⟨f, g, h⟩ := execAll_shape is
  exact ⟨_, g s.st, (h s).1, rfl, (h s).2⟩

/-- Settles O34: the commands before the FINALIZE leave a state of their stream and one response each, so the FINALIZE answers with that
stream's digest, in the next place; the commands after it only add responses behind. -/
theorem finalizeReflectsCommandsBefore : Obligations.FinalizeReflectsCommandsBefore := by
  intro before later s x hx hbefore
  obtain ⟨s1, hrun, hstream⟩ := execAll_represents hbefore hx
  obtain ⟨s1', answers, hrun', hanswers, hcount⟩ := execAll_responses before s
  obtain rfl : s1 = s1' := by simpa [hrun] using hrun'
  obtain ⟨s2, more, hlater, hmore, _⟩ := execAll_responses later (machineAfter .finalize s1)
  refine ⟨s2, responseTo .finalize s1.st, ?_, ?_, rfl, congrArg some (digest_of_represents hstream)⟩
  · rw [execAll_append _ _ _ _ hrun, execAll_cons, hlater]
  · have hplace : s.responses.length + before.length = s1.responses.length := by simp [hanswers, hcount]
    simp [hmore, hplace]

/-- A step at a presented command: it is decoded, taken off the port and executed (30_encoding R69). -/
theorem stepWith_command (seed : BitVec 32) {s : State} {w : PortWord} {rest : List HostEvent} (h : s.pending = .command w :: rest) :
    stepWith seed s = .next (machineAfter (decode w) { s with pending := rest }) := by
  simp [stepWith, nextEvent, h, exec_eq]

/-- A step at an assertion of `RST`: hardware reset, with the event taken off the port (70_reset_and_hazards R180). -/
theorem stepWith_rst (seed : BitVec 32) {s : State} {p : Option PortWord} {rest : List HostEvent} (h : s.pending = .rst p :: rest) :
    stepWith seed s = .next (hardwareReset seed { s with pending := rest }) := by
  simp [stepWith, nextEvent, h]

/-- As many steps as commands stand first on the port are those commands in order, for every PARAM_RESET_SEED. -/
theorem run_presented (seed : BitVec 32) (ws : List PortWord) (rest : List HostEvent) (s : State)
    (h : s.pending = presented ws ++ rest) :
    (coreWith seed).run ws.length s = execAll (ws.map decode) { s with pending := rest } := by
  induction ws generalizing s with
  | nil =>
    obtain rfl : s.pending = rest := h
    rfl
  | cons w ws ih =>
    rw [List.length_cons, run_succ seed _ _ _ (stepWith_command seed h), ih _ rfl, List.map_cons, execAll_cons]
    rfl

/-- Settles O41: this hardware's machine is the platform's for the parameter 0. -/
theorem runIsCommandsInOrder : Obligations.RunIsCommandsInOrder :=
  fun ws rest s h => ⟨run_presented Config.paramResetSeed ws rest s h, fun seed => run_presented seed ws rest s h⟩

/-- Counting commands event by event. -/
theorem commandCount_cons (e : HostEvent) (events : List HostEvent) :
    commandCount (e :: events) = commandCount [e] + commandCount events :=
  List.countP_append (l₁ := [e])

/-- A step takes the first event off the port, and answers it exactly when it is a command (30_encoding R65;
70_reset_and_hazards R181). -/
theorem stepWith_answers_event (seed : BitVec 32) {s : State} {e : HostEvent} {rest : List HostEvent} (h : s.pending = e :: rest) :
    ∃ s' new, stepWith seed s = .next s' ∧ s'.pending = rest ∧ s'.responses = s.responses ++ new ∧ new.length = commandCount [e] := by
  cases e with
  | command w => exact ⟨_, [responseTo (decode w) s.st], stepWith_command seed h, rfl, rfl, rfl⟩
  | rst p => exact ⟨_, [], stepWith_rst seed h, rfl, (List.append_nil _).symm, rfl⟩

/-- As many steps as there are events on the port take them all and add one response per command among them. -/
theorem run_answers_pending (seed : BitVec 32) (events : List HostEvent) (s : State) (h : s.pending = events) :
    ∃ s' new, (coreWith seed).run events.length s = .next s' ∧ s'.pending = [] ∧ s'.responses = s.responses ++ new ∧
      new.length = commandCount events := by
  induction events generalizing s with
  | nil => exact ⟨s, [], rfl, h, (List.append_nil _).symm, rfl⟩
  | cons e rest ih =>
    obtain ⟨s1, first, hstep, hrest, hfirst, hfirstCount⟩ := stepWith_answers_event seed h
    obtain ⟨s', later, hrun, hempty, hlater, hlaterCount⟩ := ih s1 hrest
    refine ⟨s', first ++ later, ?_, hempty, ?_, ?_⟩
    · rw [List.length_cons, run_succ seed _ _ _ hstep, hrun]
    · rw [hlater, hfirst, List.append_assoc]
    · rw [commandCount_cons e rest, List.length_append, hfirstCount, hlaterCount]

/-- Settles O42, by induction on the events that stand on the port. -/
theorem everyPresentedCommandAnswered : Obligations.EveryPresentedCommandAnswered := by
  intro seed s
  obtain ⟨s', new, hrun, hempty, hresponses, hcount⟩ := run_answers_pending seed s.pending s rfl
  exact ⟨s', hrun, hempty, ⟨new, hresponses.symm⟩, by rw [hresponses, List.length_append, hcount]⟩

end Sys2Proof.Machine
end

section
/-! PROOFS. The decoder and the encoder (spec 30_encoding R61 to R64, R68 to R70, R73): each undoes the other on the fields that a command
uses. -/

namespace Sys2Proof.Machine

/-- The fields of a well-formed command's word, whichever command it is (30_encoding R73). -/
theorem encode_fields (i : Instr) : Laws.AssembledFields.Statement i := by
  cases i with
  | reset seed => exact Laws.AssembledFields.reset seed
  | includeBeat beat => exact Laws.AssembledFields.includeBeat beat
  | finalize => exact Laws.AssembledFields.finalize
  | illegalOp0 => exact Laws.AssembledFields.illegalOp0
  | illegalIncludeLen len => exact Laws.AssembledFields.illegalIncludeLen len

/-- The lanes of a packed beat are the beat (30_encoding R63, R73). -/
theorem beatOf_packLanes {beat : List Byte} (hbeat : beat.length ≤ 16) : beatOf beat.length (packLanes beat) = beat := by
  refine List.ext_getElem (by simp) fun j _ hj => ?_
  rw [beatOf_getElem _ _ j hj, lane_packLanes beat hbeat j hj]

/-- An illegal INCLUDE's length lies above 16 (30_encoding R70). -/
theorem lt_len_of_wellFormed {len : BitVec 5} (h : (Instr.illegalIncludeLen len).wellFormed = true) : 16 < len.toNat := by
  simpa [Instr.wellFormed] using h

/-- Settles O44: the word of each command carries its class's OP and its operands in their fields, and those are what the decoder's arm for
that OP reads. -/
theorem decodeEncodeRoundTrip : Obligations.DecodeEncodeRoundTrip := by
  intro i hi
  obtain ⟨hop, hlen, -, hseed⟩ := encode_fields i hi
  cases i with
  | reset seed => rw [decode_reset hop, hseed]; rfl
  | includeBeat beat =>
    have hbeat := length_le_of_wellFormed hi
    have hlen : (cmdLen (encode (.includeBeat beat)).cmd).toNat = beat.length := hlen
    rw [decode_includeBeat hop (hlen ▸ hbeat), hlen]
    exact congrArg Instr.includeBeat (beatOf_packLanes hbeat)
  | finalize => exact decode_finalize hop
  | illegalOp0 => exact decode_illegalOp0 hop
  | illegalIncludeLen len =>
    have hlen : cmdLen (encode (.illegalIncludeLen len)).cmd = len := BitVec.eq_of_toNat_eq hlen
    rw [decode_illegalIncludeLen hop (hlen.symm ▸ lt_len_of_wellFormed hi), hlen]

/-- Settles O46: only the decoder's arms with a LEN to check could fail, and each has that check as its condition. -/
theorem decodedIsWellFormed : Obligations.DecodedIsWellFormed := decode_isWellFormed

/-- Settles O45: the command that a word decodes to has the word's OP as its class's and the word's used fields as its operands, and the
encoder writes those. -/
theorem encodeKeepsUsedFields : Obligations.EncodeKeepsUsedFields := by
  intro w
  obtain ⟨hop, hlen, -, hseed⟩ := encode_fields (decode w) (decode_isWellFormed w)
  obtain h | ⟨h, hle⟩ | h | h | ⟨h, hgt⟩ := cmd_cases w.cmd
  · rw [decode_reset h] at hop hseed ⊢
    exact ⟨hop.trans h.symm, fun _ => hseed, by simp [h], by simp [h]⟩
  · rw [decode_includeBeat h hle] at hop hlen ⊢
    refine ⟨hop.trans h.symm, by simp [h], fun _ => BitVec.eq_of_toNat_eq (hlen.trans (beatOf_length _ _)), fun _ _ j hj => ?_⟩
    exact (lane_packLanes _ (by simpa using hle) j (by simpa using hj)).trans (beatOf_getElem _ _ j hj)
  · rw [decode_finalize h] at hop ⊢
    exact ⟨hop.trans h.symm, by simp [h], by simp [h], by simp [h]⟩
  · rw [decode_illegalOp0 h] at hop ⊢
    exact ⟨hop.trans h.symm, by simp [h], by simp [h], by simp [h]⟩
  · rw [decode_illegalIncludeLen h hgt] at hop hlen ⊢
    exact ⟨hop.trans h.symm, by simp [h], fun _ => BitVec.eq_of_toNat_eq hlen, fun _ hle => absurd hle (by omega)⟩

/-- A beat reads its own lanes only (30_encoding R63). -/
theorem beatOf_congr {n : Nat} {a b : BitVec 128} (h : ∀ j < n, lane a j = lane b j) : beatOf n a = beatOf n b :=
  List.map_congr_left fun j hj => h j (List.mem_range.mp hj)

/-- Decoding reads OP and the fields that the command of that OP uses, and nothing else (30_encoding R64). -/
theorem decode_congr {v w : PortWord} (hop : cmdOp v.cmd = cmdOp w.cmd) (hseed : cmdOp v.cmd = 0b01 → cmdSeed v.cmd = cmdSeed w.cmd)
    (hinclude : cmdOp v.cmd = 0b10 →
      cmdLen v.cmd = cmdLen w.cmd ∧ ∀ j < (cmdLen v.cmd).toNat, j < 16 → lane v.data j = lane w.data j) : decode v = decode w := by
  obtain h | ⟨h, hle⟩ | h | h | ⟨h, hgt⟩ := cmd_cases v.cmd
  · rw [decode_reset h, decode_reset (hop ▸ h), hseed h]
  · obtain ⟨hlen, hlanes⟩ := hinclude h
    rw [decode_includeBeat h hle, decode_includeBeat (hop ▸ h) (hlen ▸ hle), ← hlen,
      beatOf_congr fun j hj => hlanes j hj (by omega)]
  · rw [decode_finalize h, decode_finalize (hop ▸ h)]
  · rw [decode_illegalOp0 h, decode_illegalOp0 (hop ▸ h)]
  · obtain ⟨hlen, _⟩ := hinclude h
    rw [decode_illegalIncludeLen h hgt, decode_illegalIncludeLen (hop ▸ h) (hlen ▸ hgt), hlen]

/-- Settles O43: such words decode to the same command, and a step sees of a word only what it decodes to. -/
theorem unusedFieldsIgnored : Obligations.UnusedFieldsIgnored := by
  intro seed v w rest s hop hseed hinclude
  rw [stepWith_command seed rfl, stepWith_command seed rfl, decode_congr hop hseed hinclude]

/-- Settles O48: each word's OP picks the decoder's arm, whose fields are computed. -/
theorem decodesSpecWords : Obligations.DecodesSpecWords :=
  ⟨decode_reset (by decide), decode_reset (by decide), decode_includeBeat (by decide) (by decide),
    decode_includeBeat (by decide) (by decide), decode_finalize (by decide), decode_illegalOp0 (by decide),
    decode_illegalIncludeLen (by decide) (by decide)⟩

end Sys2Proof.Machine
end

section
/-! PROOFS. The opcode map (spec 30_encoding R77): which words each row covers, in the fields OP and LEN. -/

namespace Sys2Proof.Machine

/-- A mask within the low seven bits reads those bits of the word only. -/
theorem toNat_and_of_mask_lt (cmd mask : BitVec 40) (h : mask.toNat < 2 ^ 7) :
    (cmd &&& mask).toNat = (cmd.toNat % 2 ^ 7) &&& mask.toNat := by
  have hlt : cmd.toNat &&& mask.toNat < 2 ^ 7 := Nat.and_lt_two_pow _ h
  rw [BitVec.toNat_and, ← Nat.mod_eq_of_lt hlt, Nat.and_mod_two_pow, Nat.mod_eq_of_lt h]

/-- The rows with mask `0x03` compare OP. -/
theorem and_opMask_eq_iff (cmd : BitVec 40) (op : BitVec 2) : cmd &&& 0x0000000003 = op.setWidth 40 ↔ cmdOp cmd = op := by
  rw [← BitVec.toNat_inj, ← BitVec.toNat_inj, cmdOp_toNat, BitVec.toNat_and, BitVec.toNat_setWidth_of_le (by decide)]
  exact (Nat.and_two_pow_sub_one_eq_mod cmd.toNat 2).congr_left

/-- The row with mask `0x43` compares OP and the top bit of LEN. -/
theorem and_longIncludeMask_eq_iff (cmd : BitVec 40) :
    cmd &&& 0x0000000043 = 0x0000000042 ↔ cmdOp cmd = 0b10 ∧ 16 ≤ (cmdLen cmd).toNat := by
  have hbits : ∀ low < 2 ^ 7, low &&& 0x43 = 0x42 ↔ low % 4 = 2 ∧ 16 ≤ low / 4 % 32 := by decide
  have hlow := hbits (cmd.toNat % 2 ^ 7) (Nat.mod_lt _ (by decide))
  rw [← BitVec.toNat_inj, ← BitVec.toNat_inj, toNat_and_of_mask_lt _ _ (by decide), cmdOp_toNat, cmdLen_toNat]
  exact hlow.trans (show _ ↔ cmd.toNat % 4 = 2 ∧ _ by omega)

/-- The low four bits of LEN, which the condition of the last row reads. -/
theorem lowLenBits_ne_zero_iff (cmd : BitVec 40) : cmd.extractLsb' 2 4 ≠ 0 ↔ (cmdLen cmd).toNat % 16 ≠ 0 := by
  rw [ne_eq, ← BitVec.toNat_inj, BitVec.extractLsb'_toNat, cmdLen_toNat, Nat.shiftRight_eq_div_pow]
  exact not_congr (show cmd.toNat / 4 % 16 = 0 ↔ _ by omega)

/-- Row by row, the opcode map's patterns are the decoder's conditions. -/
theorem opcodeMap_covers (cmd : BitVec 40) :
    opcodeMap.map (·.covers cmd) =
      [decide (cmdOp cmd = 0b01), decide (cmdOp cmd = 0b10 ∧ (cmdLen cmd).toNat ≤ 16), decide (cmdOp cmd = 0b11),
        decide (cmdOp cmd = 0b00), decide (cmdOp cmd = 0b10 ∧ 16 < (cmdLen cmd).toNat)] := by
  have hop0 : cmd &&& 3 = 0 ↔ cmdOp cmd = 0b00 := and_opMask_eq_iff cmd 0b00
  have hop1 : cmd &&& 3 = 1 ↔ cmdOp cmd = 0b01 := and_opMask_eq_iff cmd 0b01
  have hop2 : cmd &&& 3 = 2 ↔ cmdOp cmd = 0b10 := and_opMask_eq_iff cmd 0b10
  have hop3 : cmd &&& 3 = 3 ↔ cmdOp cmd = 0b11 := and_opMask_eq_iff cmd 0b11
  have hlong : (cmdOp cmd = 0b10 ∧ 16 ≤ (cmdLen cmd).toNat) ∧ (cmdLen cmd).toNat % 16 ≠ 0 ↔
      cmdOp cmd = 0b10 ∧ 16 < (cmdLen cmd).toNat := by
    have := (cmdLen cmd).isLt
    rw [and_assoc]
    exact and_congr_right fun _ => by omega
  simp only [opcodeMap, List.map, OpcodeRow.covers, OpcodeCondition.holds, Bool.and_true, ← Bool.decide_and,
    and_longIncludeMask_eq_iff, lowLenBits_ne_zero_iff, hlong, hop0, hop1, hop2, hop3]

/-- Settles O47: in each case of OP and LEN one row covers the word, the one of the command that the decoder's arm gives. -/
theorem opcodeMapIsUnambiguous : Obligations.OpcodeMapIsUnambiguous := by
  intro w
  have hrows := opcodeMap_covers w.cmd
  simp only [opcodeMap, List.map, List.cons.injEq, and_true] at hrows
  obtain ⟨hreset, hinclude, hfinalize, hop0, hlong⟩ := hrows
  simp only [opcodeMap, List.filter_cons, List.filter_nil, hreset, hinclude, hfinalize, hop0, hlong, decide_eq_true_eq]
  obtain h | ⟨h, hle⟩ | h | h | ⟨h, hgt⟩ := cmd_cases w.cmd
  · exact ⟨opcodeMap[0], by simp [opcodeMap, h], by rw [decode_reset h]; rfl⟩
  · exact ⟨opcodeMap[1], by simp [opcodeMap, h, hle, Nat.not_lt.mpr hle], by rw [decode_includeBeat h hle]; rfl⟩
  · exact ⟨opcodeMap[2], by simp [opcodeMap, h], by rw [decode_finalize h]; rfl⟩
  · exact ⟨opcodeMap[3], by simp [opcodeMap, h], by rw [decode_illegalOp0 h]; rfl⟩
  · exact ⟨opcodeMap[4], by simp [opcodeMap, h, Nat.not_le.mpr hgt, hgt], by rw [decode_illegalIncludeLen h hgt]; rfl⟩

end Sys2Proof.Machine
end

section
/-! PROOFS. The assembler's words (spec 30_encoding R72, R73). -/

namespace Sys2Proof.Machine

/-- Every lane of a packed beat: its byte, and zero above the beat (30_encoding R73). -/
theorem lane_packLanes_getD {beat : List Byte} (hbeat : beat.length ≤ 16) (j : Nat) :
    lane (packLanes beat) j = beat[j]?.getD 0 := by
  by_cases hj : j < beat.length
  · simp [lane_packLanes beat hbeat j hj, hj]
  · refine BitVec.eq_of_getLsbD_eq fun i hi => ?_
    simp [lane, getLsbD_packLanes beat hbeat, show beat.length ≤ (8 * j + i) / 8 by omega,
      show beat.length ≤ j by omega]

theorem beatInstr_of_le {bytes : List Byte} (h : bytes.length ≤ 16) : beatInstr bytes = some (.includeBeat bytes) := if_pos h

theorem beatInstr_of_gt {bytes : List Byte} (h : 16 < bytes.length) : beatInstr bytes = none := if_neg (by simpa using h)

/-- A signed decimal seed's field is the seed modulo 2^32 (30_encoding R72). -/
theorem field_dec {v : Int} (hlo : -2147483648 ≤ v) (hhi : v ≤ 2147483647) :
    (SeedLiteral.dec v).field = some (BitVec.ofInt 32 v) := if_pos ⟨hlo, hhi⟩

/-- Settles O49: an assembled line is the encoder's word of its command, as a number for RESET and lane by lane for INCLUDE. -/
theorem assemblerEncodes : Obligations.AssemblerEncodes := by
  refine ⟨fun v hlo hhi => ?_, fun bytes hbytes => ?_, fun bytes hbytes => ?_, by decide, by decide, by decide, by decide⟩
  · refine ⟨encode (.reset (BitVec.ofInt 32 v)), by simp [assemble, AsmLine.instr, field_dec hlo hhi], ?_, rfl⟩
    rw [encode_reset_toNat, BitVec.toNat_ofInt]
    omega
  · refine ⟨encode (.includeBeat bytes), by simp [assemble, AsmLine.instr, beatInstr_of_le hbytes], ?_, fun j _ => ?_⟩
    · exact encode_includeBeat_toNat bytes hbytes
    · exact lane_packLanes_getD hbytes j
  · simp [assemble, AsmLine.instr, beatInstr_of_gt hbytes]

end Sys2Proof.Machine
end

section
/-! PROOFS. One command's step and its response (spec 30_encoding R65, R66, R69, R70; 60_exceptions R161, R163). -/

namespace Sys2Proof.Machine

/-- Settles O5: the two illegal classes are the decoder's last two cases, and each is answered by `responseTo` with the engine's state kept. -/
theorem illegalWordsAnswerInvalidArgument : Obligations.IllegalWordsAnswerInvalidArgument := by
  refine ⟨fun w => ?_, fun s => exec_eq .illegalOp0 s, fun len s _ => exec_eq (.illegalIncludeLen len) s⟩
  change _ ↔ cmdOp w.cmd = 0b00 ∨ (cmdOp w.cmd = 0b10 ∧ 17 ≤ (cmdLen w.cmd).toNat)
  obtain h | ⟨h, hle⟩ | h | h | ⟨h, hgt⟩ := cmd_cases w.cmd
  · simp [decode_reset h, Instr.isLegal, h]
  · simp [decode_includeBeat h hle, Instr.isLegal, h]; omega
  · simp [decode_finalize h, Instr.isLegal, h]
  · simp [decode_illegalOp0 h, Instr.isLegal, h]
  · simp [decode_illegalIncludeLen h hgt, Instr.isLegal, h]; omega

/-- The status and the digest of a command's response, and that it shows the phase the command leaves (30_encoding R65, R66). -/
theorem responseTo_fields (i : Instr) (st : HashState) :
    (responseTo i st).status.code = (if i.isLegal then 0b00 else 0b01) ∧
      (responseTo i st).digest = (if i = .finalize then some st.digest else none) ∧ (responseTo i st).phase = (engineAfter i st).phase := by
  cases i with
  | includeBeat beat => exact ⟨rfl, rfl, (includeState_phase beat st).symm⟩
  | reset | finalize | illegalOp0 | illegalIncludeLen => exact ⟨rfl, rfl, rfl⟩

/-- Settles O6: `machineAfter` adds the one response of `responseTo`. -/
theorem everyCommandAnswersOnce : Obligations.EveryCommandAnswersOnce := by
  refine ⟨fun i s => ⟨machineAfter i s, responseTo i s.st, exec_eq i s, rfl, responseTo_fields i s.st⟩, fun c => ?_⟩
  cases c with
  | ok => decide
  | invalidArgument => decide

/-- A step at a presented command, for every PARAM_RESET_SEED (30_encoding R69). -/
theorem stepWith_eq_exec (seed : BitVec 32) {s : State} {w : PortWord} {rest : List HostEvent} (h : s.pending = .command w :: rest) :
    stepWith seed s = exec (decode w) { s with pending := rest } := by
  rw [stepWith_command seed h, exec_eq]

/-- Settles O35: `decode` is R69's function written with the names of the fields. -/
theorem stepRunsDecodedCommand : Obligations.StepRunsDecodedCommand :=
  ⟨fun _ => rfl, fun _ _ _ h => ⟨stepWith_eq_exec _ h, fun seed => stepWith_eq_exec seed h⟩⟩

/-- Settles O40: the placed word stands first on the port. -/
theorem placedWordRunsNext : Obligations.PlacedWordRunsNext :=
  fun s nbits w => ⟨decode (portWordOfBits nbits w), rfl, stepWith_eq_exec _ (presentCommand_pending (portWordOfBits nbits w) s)⟩

end Sys2Proof.Machine
end

section
/-! PROOFS. The pseudo-instructions (spec 30_encoding R74, R76): the beats of INCLUDE_STREAM, and the digest of HASH_ONESHOT. -/

namespace Sys2Proof.Machine

/-- Enough beats hold all the bytes, in order (30_encoding R74). -/
theorem beatsFrom_flatten {k : Nat} {bytes : List Byte} (h : bytes.length ≤ 16 * k) : (beatsFrom k bytes).flatten = bytes := by
  induction k generalizing bytes with
  | zero => exact (List.eq_nil_of_length_eq_zero (Nat.le_zero.mp h)).symm
  | succ k ih => rw [beatsFrom, List.flatten_cons, ih (by simp; omega), List.take_append_drop]

theorem streamBeats_flatten (bytes : List Byte) : (streamBeats bytes).flatten = bytes :=
  beatsFrom_flatten (by simp; omega)

theorem streamBeats_length (bytes : List Byte) : (streamBeats bytes).length = (bytes.length + 15) / 16 := beatsFrom_length _ _

/-- Where there is a beat `k`, it holds the bytes from `16k` on, up to 16 of them (30_encoding R74). -/
theorem eq_of_streamBeats_getElem? {bytes beat : List Byte} {k : Nat} (h : (streamBeats bytes)[k]? = some beat) :
    k < (bytes.length + 15) / 16 ∧ beat = (bytes.drop (16 * k)).take 16 := by
  obtain ⟨hk, _⟩ := List.getElem?_eq_some_iff.mp h
  rw [streamBeats_length] at hk
  exact ⟨hk, Option.some_inj.mp (h.symm.trans (beatsFrom_getElem? _ k bytes hk))⟩

/-- Settles O31: beat `k` is what remains from byte `16k` on, up to 16 bytes, and it is the last one exactly where no more than 16 remain. -/
theorem streamBeatsSplitInOrder : Obligations.StreamBeatsSplitInOrder := by
  refine fun bytes => ⟨streamBeats_flatten bytes, streamBeats_length bytes, fun k beat h => ?_⟩
  obtain ⟨hk, rfl⟩ := eq_of_streamBeats_getElem? h
  rw [List.length_take, List.length_drop]
  split <;> omega

/-- INCLUDE_STREAM is made of legal beats (30_encoding R62, R74). -/
theorem length_le_of_mem_streamBeats {bytes beat : List Byte} (h : beat ∈ streamBeats bytes) : beat.length ≤ 16 := by
  obtain ⟨k, hk⟩ := List.mem_iff_getElem?.mp h
  rw [(eq_of_streamBeats_getElem? hk).2]
  exact List.length_take_le _ _

theorem includeStream_wellFormed {bytes : List Byte} : ∀ i ∈ includeStream bytes, i.wellFormed = true := by
  intro i hi
  obtain ⟨beat, hbeat, rfl⟩ := List.mem_map.mp hi
  exact decide_eq_true (length_le_of_mem_streamBeats hbeat)

theorem hashOneShot_wellFormed {bytes : List Byte} {seed : BitVec 32} : ∀ i ∈ hashOneShot bytes seed, i.wellFormed = true := by
  intro i hi
  obtain rfl | hi | rfl : i = .reset seed ∨ i ∈ includeStream bytes ∨ i = .finalize := by simpa [hashOneShot] using hi
  · rfl
  · exact includeStream_wellFormed i hi
  · rfl

/-- Includes extend the stream by their beats (00_scope R15). -/
theorem foldl_after_includes (beats : List (List Byte)) (x : ByteStream) :
    (beats.map .includeBeat).foldl ByteStream.after x = { x with bytes := x.bytes ++ beats.flatten } := by
  induction beats generalizing x with
  | nil => simp
  | cons beat beats ih => simp [ih, ByteStream.after]

/-- INCLUDE_STREAM extends the stream by its bytes (30_encoding R74). -/
theorem foldl_after_includeStream (bytes : List Byte) (x : ByteStream) :
    (includeStream bytes).foldl ByteStream.after x = { x with bytes := x.bytes ++ bytes } := by
  rw [includeStream, foldl_after_includes, streamBeats_flatten]

/-- Executing commands takes nothing off the port. -/
theorem pending_of_execAll {is : List Instr} {s s' : State} (h : execAll is s = .next s') : s'.pending = s.pending := by
  induction is generalizing s with
  | nil =>
    obtain rfl : s = s' := by simpa [execAll] using h
    rfl
  | cons i is ih => exact ih (s := machineAfter i s) (execAll_cons i is s ▸ h)

/-- Encoding well-formed commands and decoding their words gives them back (30_encoding R69, R73). -/
theorem map_decode_encode {is : List Instr} (h : ∀ i ∈ is, i.wellFormed = true) : (is.map encode).map decode = is := by
  rw [List.map_map]
  exact (List.map_congr_left fun i hi => decodeEncodeRoundTrip i (h i hi)).trans (List.map_id is)

/-- HASH_ONESHOT in any state: after its RESET the engine stands for the empty stream of the seed, after its INCLUDEs for the whole byte
sequence, and its FINALIZE answers last, with that stream's digest (30_encoding R76). -/
theorem execAll_hashOneShot (bytes : List Byte) (seed : BitVec 32) (s : State) :
    ∃ s', execAll (hashOneShot bytes seed) s = .next s' ∧ s'.pending = s.pending ∧
      s'.responses.getLast? = some { status := .ok, digest := some (ByteStream.digest ⟨seed, bytes⟩), phase := .finalized } := by
  have hreset : (machineAfter (.reset seed) s).st.Represents ⟨seed, []⟩ := seededState_represents seed
  obtain ⟨s1, hrun, hstream⟩ := execAll_represents includeStream_wellFormed hreset
  rw [foldl_after_includeStream] at hstream
  have hdigest : s1.st.digest = ByteStream.digest ⟨seed, bytes⟩ := digest_of_represents hstream
  refine ⟨machineAfter .finalize s1, ?_, (pending_of_execAll hrun :), ?_⟩
  · rw [hashOneShot, List.cons_append, execAll_cons, execAll_append _ _ _ _ hrun, execAll_cons, execAll]
  · simp [responseTo, hdigest]

/-- Settles O56: the words are taken in order, decode to the commands of HASH_ONESHOT, and those leave the one-call digest last. -/
theorem hashOneShotComputesDigest : Obligations.HashOneShotComputesDigest := by
  intro paramResetSeed bytes seed s hp
  have hrun := run_presented paramResetSeed _ [] s (hp.trans (List.append_nil _).symm)
  rw [map_decode_encode hashOneShot_wellFormed] at hrun
  obtain ⟨s', hexec, hpending, hlast⟩ := execAll_hashOneShot bytes seed { s with pending := [] }
  refine ⟨s', _, ?_, hpending, hlast, rfl, rfl⟩
  rw [hp, presented, List.length_map, hrun]
  exact hexec

end Sys2Proof.Machine
end

section
/-! PROOFS. The mixing datapath (spec 40_mixing_engine R81 to R89): its formulas with the spec's literals, BlockMix block by block, and
fmix64 as a composition of bijections. -/

namespace Sys2Proof.Machine

/-- Zero keys mix to zero (40_mixing_engine R83). -/
@[simp] theorem mixK1_zero : mixK1 0 = 0 := by decide
@[simp] theorem mixK2_zero : mixK2 0 = 0 := by decide

/-- Settles O14: the named constants are the spec's literals. -/
theorem keyMixingFormulas : Obligations.KeyMixingFormulas :=
  ⟨fun _ => rfl, fun _ => rfl, by decide, by decide, mixK1_zero, mixK2_zero⟩

/-- A block's second key is read from all the bytes after the first eight, for nothing follows them (40_mixing_engine R84, R85). -/
theorem blockMix_eq_of_length {block : List Byte} (hblock : block.length = 16) (h1 h2 : Word) :
    blockMix ⟨h1, h2⟩ block =
      ⟨mixH1 h1 h2 (le64 (block.take 8)), mixH2 (mixH1 h1 h2 (le64 (block.take 8))) h2 (le64 (block.drop 8))⟩ := by
  have hsecond : (block.drop 8).take 8 = block.drop 8 := List.take_of_length_le (by rw [List.length_drop, hblock])
  rw [blockMix, hsecond]

/-- Settles O15: `mixH1` and `mixH2` are the steps 1 and 2, written with the names of the constants. -/
theorem blockMixStepByStep : Obligations.BlockMixStepByStep :=
  ⟨fun h1 h2 _ hblock => blockMix_eq_of_length hblock h1 h2, by decide, by decide⟩

/-- BlockMix* begins with the first block, whatever follows it (40_mixing_engine R87). -/
theorem blockMixStar_block_append (h : Accumulators) {block : List Byte} (rest : List Byte) (hblock : block.length = 16) :
    blockMixStar h (block ++ rest) = blockMixStar (blockMix h block) rest := by
  have hblocks : (block ++ rest).length / 16 = rest.length / 16 + 1 := by rw [List.length_append]; omega
  rw [blockMixStar, blockBytes_eq, hblocks, blockMixStarFrom, blockBytes_eq, List.take_left' hblock, List.drop_left' hblock]
  rfl

/-- Settles O16: the empty sequence has no block. -/
theorem blockMixStarFolds : Obligations.BlockMixStarFolds :=
  ⟨fun _ => rfl, fun h _ rest hblock _ => blockMixStar_block_append h rest hblock⟩

/-- Settles O17: `xorShift33` is the shift step, and the named multipliers are the spec's literals. -/
theorem fmixStepByStep : Obligations.FmixStepByStep :=
  ⟨fun _ => rfl, by decide, by decide, by decide⟩

/-- The multipliers of fmix64 are odd, so each has an inverse modulo 2^64, given here (40_mixing_engine R89). -/
theorem isUnit_f1 : IsUnit Config.f1 := .of_mul_eq_one 0x4f74430c22a54005 (by decide)
theorem isUnit_f2 : IsUnit Config.f2 := .of_mul_eq_one 0x9cb4b2f8129337db (by decide)

/-- Settles O18: fmix64 composes shift steps, which are involutions, with multiplications by units. -/
theorem fmixIsBijective : Obligations.FmixIsBijective :=
  have hshift : Function.Bijective xorShift33 := xorShift33_involutive.bijective
  have hmul1 : Function.Bijective (· * Config.f1) := IsUnit.isUnit_iff_mulRight_bijective.mp isUnit_f1
  have hmul2 : Function.Bijective (· * Config.f2) := IsUnit.isUnit_iff_mulRight_bijective.mp isUnit_f2
  hshift.comp (hmul2.comp (hshift.comp (hmul1.comp hshift)))

end Sys2Proof.Machine
end

section
/-! PROOFS. One INCLUDE (spec 41_include R101 to R107, R112): what it does to the tail, the count and the accumulators, and the frame of
every command (R104). -/

namespace Sys2Proof.Machine

theorem assembleBlock_length {tail beat : List Byte} (htail : tail.length ≤ 15) (h : 16 ≤ tail.length + beat.length) :
    (assembleBlock tail beat).length = 16 := by
  rw [assembleBlock_eq_take _ _ (by omega), List.length_take, List.length_append]
  omega

/-- Settles O10: the block is the first 16 entries of the tail followed by the beat. -/
theorem blockAssembledLaneByLane : Obligations.BlockAssembledLaneByLane := by
  refine fun tail beat htail h => ⟨assembleBlock_length htail h, fun i hi => ?_⟩
  rw [assembleBlock_eq_take _ _ (by omega), List.getElem?_take_of_lt hi, List.getElem?_append]

/-- Settles O11: on the append path the beat stands behind the tail, on the refill path the tail is the beat from the split on. -/
theorem tailPathsEntryByEntry : Obligations.TailPathsEntryByEntry := by
  intro beat s _ htail
  have hlength := includeState_tail_length beat s.st htail
  refine ⟨_, exec_eq _ s, fun happend => ?_, fun hrefill => ?_⟩
  · rw [if_pos (by omega)] at hlength
    refine ⟨hlength, fun i hi => ?_, fun i _ => ?_⟩
    · simp [engineAfter, includeState_append beat s.st (by omega), List.getElem?_append_left hi]
    · simp [engineAfter, includeState_append beat s.st (by omega), List.getElem?_append_right]
  · rw [if_neg (by omega)] at hlength
    refine ⟨hlength, fun i _ => ?_⟩
    simp [engineAfter, includeState_complete beat s.st hrefill, refillTail, splitPoint]

/-- Settles O3: the two paths of `includeState`, and the decoder's two arms for OP = 10. -/
theorem includeAbsorbsBeat : Obligations.IncludeAbsorbsBeat := by
  refine ⟨fun w s hop hlen => ?_, fun w hop hlen => decode_includeBeat hop hlen, fun beat s _ => ?_⟩
  · rw [decode_illegalIncludeLen hop hlen, exec_eq]
    rfl
  · rw [exec_eq, machineAfter, engineAfter]
    split
    case isTrue happend => rw [includeState_append beat s.st happend]; rfl
    case isFalse hfull => rw [includeState_complete beat s.st (Nat.not_lt.mp hfull)]; rfl

/-- Settles O9: every command is `machineAfter`, which adds its response behind the delivered ones and leaves the port. -/
theorem commandFrames : Obligations.CommandFrames := by
  intro i s s' hexec
  obtain rfl : machineAfter i s = s' := by simpa [exec_eq] using hexec
  refine ⟨rfl, ⟨[responseTo i s.st], rfl⟩, ?_⟩
  cases i with
  | reset seed => trivial
  | includeBeat beat =>
    intro happend
    rw [machineAfter_st, engineAfter, includeState_append beat s.st happend]
    exact ⟨rfl, rfl, beat, rfl⟩
  | finalize => exact ⟨rfl, rfl, rfl, rfl⟩
  | illegalOp0 | illegalIncludeLen => rfl

/-- The count after an INCLUDE, as a number (41_include R103). -/
theorem includeState_totalLength_toNat (beat : List Byte) (st : HashState) :
    (includeState beat st).totalLength.toNat = (st.totalLength.toNat + beat.length) % 2 ^ 64 := by
  simp [beatCount, BitVec.toNat_add, BitVec.toNat_ofNat]

/-- Settles O12: both paths of INCLUDE count alike. -/
theorem includeCountsModulo2Pow64 : Obligations.IncludeCountsModulo2Pow64 :=
  fun beat s _ => ⟨_, exec_eq _ s, includeState_totalLength_toNat beat s.st⟩

/-- An empty beat completes no block, appends nothing and counts 0 (41_include R112). -/
theorem includeState_nil {st : HashState} (htail : st.tail.length ≤ 15) : includeState [] st = { st with phase := .accumulating } := by
  rw [includeState_append [] st (by simp; omega)]
  simp [beatCount]

/-- Settles O13: the INCLUDE's engine state is that of `includeState_nil`. -/
theorem emptyBeatOnlyMovesPhase : Obligations.EmptyBeatOnlyMovesPhase := by
  intro s htail
  rw [exec_eq, machineAfter, engineAfter, includeState_nil htail]
  rfl

end Sys2Proof.Machine
end

section
/-! PROOFS. Splits of a byte sequence into beats (spec 41_include R110, R111): any beats leave what INCLUDE of the single bytes, one after
the other, leaves. -/

namespace Sys2Proof.Machine

theorem agreeButPhase_symm {a b : HashState} (h : a.AgreeButPhase b) : b.AgreeButPhase a := by
  obtain ⟨h1, h2, htotal, htail⟩ := h
  exact ⟨h1.symm, h2.symm, htotal.symm, htail.symm⟩

theorem includeState_tail_length_le {beat : List Byte} {st : HashState} (hbeat : beat.length ≤ 16) (htail : st.tail.length ≤ 15) :
    (includeState beat st).tail.length ≤ 15 := by
  rw [includeState_tail_length beat st htail]
  split <;> omega

theorem beatCount_cons (b : Byte) (bs : List Byte) : beatCount (b :: bs) = beatCount [b] + beatCount bs := by
  simp [beatCount, BitVec.ofNat_add, BitVec.add_comm]

/-- The first byte of a beat may be included before the others (41_include R111). With 15 bytes pending it completes the block and the
others are the new tail; with fewer it joins the tail, and the bytes available to the others are the same. -/
theorem includeState_cons {b : Byte} {bs : List Byte} {st : HashState} (hbeat : (b :: bs).length ≤ 16) (htail : st.tail.length ≤ 15) :
    includeState (b :: bs) st = includeState bs (includeState [b] st) := by
  have hcount : st.totalLength + beatCount (b :: bs) = st.totalLength + beatCount [b] + beatCount bs := by
    rw [beatCount_cons, BitVec.add_assoc]
  have hbytes : st.tail ++ b :: bs = st.tail ++ [b] ++ bs := List.append_cons ..
  rw [List.length_cons] at hbeat
  by_cases hfull : st.tail.length = 15
  · rw [includeState_complete (b :: bs) st (by simp; omega), includeState_complete [b] st (by simp [hfull]),
      includeState_append bs _ (by simp [refillTail, splitPoint, hfull]; omega), hcount]
    simp [assembleBlock, refillTail, splitPoint, hfull]
  · rw [includeState_append [b] st (by simp; omega)]
    by_cases happend : st.tail.length + (b :: bs).length < 16
    · rw [includeState_append (b :: bs) st happend, includeState_append bs _ (by simp at happend ⊢; omega), hcount, hbytes]
    · rw [includeState_complete (b :: bs) st (by omega), includeState_complete bs _ (by simp at happend ⊢; omega), hcount]
      simp only [assembleBlock_eq_take st.tail _ (by omega), refillTail_eq_drop st.tail _ (by omega), hbytes,
        assembleBlock_eq_take (st.tail ++ [b]) _ (by simp; omega), refillTail_eq_drop (st.tail ++ [b]) _ (by simp; omega)]
      rfl

/-- The engine's state after the bytes of a sequence, each included as a beat of its own: the finest split. `includes_agree_absorbBytes`
ties it to every other. -/
def absorbBytes (st : HashState) (bytes : List Byte) : HashState := bytes.foldl (fun st b => includeState [b] st) st

theorem absorbBytes_cons (st : HashState) (b : Byte) (bs : List Byte) : absorbBytes st (b :: bs) = absorbBytes (includeState [b] st) bs := rfl

theorem absorbBytes_append (st : HashState) (x y : List Byte) : absorbBytes st (x ++ y) = absorbBytes (absorbBytes st x) y :=
  List.foldl_append

/-- The first byte's INCLUDE already forgets the phase. -/
theorem absorbBytes_congr (bytes : List Byte) {a b : HashState} (h : a.AgreeButPhase b) :
    (absorbBytes a bytes).AgreeButPhase (absorbBytes b bytes) := by
  cases bytes with
  | nil => exact h
  | cons c cs =>
    rw [absorbBytes_cons, absorbBytes_cons, includeState_congr [c] h]
    exact ⟨rfl, rfl, rfl, rfl⟩

/-- A beat leaves what its bytes leave; only the empty one moves `phase` where no byte does. -/
theorem includeState_agree_absorbBytes {beat : List Byte} {st : HashState} (hbeat : beat.length ≤ 16) (htail : st.tail.length ≤ 15) :
    (includeState beat st).AgreeButPhase (absorbBytes st beat) := by
  induction beat generalizing st with
  | nil =>
    rw [includeState_nil htail]
    exact ⟨rfl, rfl, rfl, rfl⟩
  | cons b bs ih =>
    rw [includeState_cons hbeat htail, absorbBytes_cons]
    exact ih (Nat.le_of_succ_le hbeat) (includeState_tail_length_le (beat := [b]) (by simp) htail)

/-- Beats leave what the bytes of their sequence leave (41_include R111). -/
theorem includes_agree_absorbBytes {beats : List (List Byte)} {st : HashState} (hbeats : ∀ b ∈ beats, b.length ≤ 16)
    (htail : st.tail.length ≤ 15) :
    (beats.foldl (fun st b => includeState b st) st).AgreeButPhase (absorbBytes st beats.flatten) := by
  induction beats generalizing st with
  | nil => exact ⟨rfl, rfl, rfl, rfl⟩
  | cons beat beats ih =>
    obtain ⟨hbeat, hbeats⟩ := List.forall_mem_cons.mp hbeats
    rw [List.foldl_cons, List.flatten_cons, absorbBytes_append]
    have hfirst := includeState_agree_absorbBytes hbeat htail
    exact agreeButPhase_trans (ih hbeats (includeState_tail_length_le hbeat htail)) (absorbBytes_congr _ hfirst)

/-- Beats leave what INCLUDE_STREAM of their sequence leaves: both are splits of it (41_include R111). -/
theorem includes_agree_absorb {beats : List (List Byte)} {st : HashState} (hbeats : ∀ b ∈ beats, b.length ≤ 16)
    (htail : st.tail.length ≤ 15) :
    (beats.foldl (fun st b => includeState b st) st).AgreeButPhase (absorb st beats.flatten) := by
  have hstream : (absorb st beats.flatten).AgreeButPhase (absorbBytes st (streamBeats beats.flatten).flatten) :=
    includes_agree_absorbBytes (fun _ => length_le_of_mem_streamBeats) htail
  rw [streamBeats_flatten] at hstream
  exact agreeButPhase_trans (includes_agree_absorbBytes hbeats htail) (agreeButPhase_symm hstream)

/-- Settles O32: the beats of INCLUDE_STREAM `x` and then those of INCLUDE_STREAM `y` are one more split of `x ++ y`. -/
theorem absorbIgnoresTheSplit : Obligations.AbsorbIgnoresTheSplit := by
  refine fun st htail => ⟨fun beats hbeats => includes_agree_absorb hbeats htail, fun x y => ?_⟩
  have hbeats : ∀ b ∈ streamBeats x ++ streamBeats y, b.length ≤ 16 := fun b hb =>
    (List.mem_append.mp hb).elim length_le_of_mem_streamBeats length_le_of_mem_streamBeats
  have h := includes_agree_absorb hbeats htail
  rwa [List.foldl_append, List.flatten_append, streamBeats_flatten, streamBeats_flatten] at h

/-- Settles O33: every INCLUDE of at most 16 bytes keeps the stream invariant, and the stream that the INCLUDEs extend is the beats' bytes
in order, whose digest a state of that stream returns. -/
theorem chunkInvariance : Obligations.ChunkInvariance := by
  intro seed beats s hs hbeats
  have hwellFormed : ∀ i ∈ beats.map Instr.includeBeat, i.wellFormed = true :=
    List.forall_mem_map.mpr fun beat hbeat => decide_eq_true (hbeats beat hbeat)
  obtain ⟨s', hrun, hstream⟩ := execAll_represents hwellFormed hs
  rw [foldl_after_includes] at hstream
  exact ⟨s', hrun, hstream, digest_of_represents hstream⟩

end Sys2Proof.Machine
end

section
/-! PROOFS. Tail packing and tail mixing (spec 42_finalize R121 to R124). Side by side, the two key words are one 128-bit word in which
every tail byte has its own lane, so the loop packs the tail as a beat is packed into DATA. -/

namespace Sys2Proof.Machine

/-- The key words as one word, `k2` the more significant half. -/
def TailKeys.word (k : TailKeys) : BitVec 128 := k.k2 ++ k.k1

theorem getLsbD_word_low (k : TailKeys) {p : Nat} (hp : p < 64) : k.word.getLsbD p = k.k1.getLsbD p :=
  (BitVec.getLsbD_append ..).trans (if_pos hp)

theorem getLsbD_word_high (k : TailKeys) (p : Nat) : k.word.getLsbD (64 + p) = k.k2.getLsbD p := by
  rw [TailKeys.word, BitVec.getLsbD_append, if_neg (by omega), Nat.add_sub_cancel_left]

/-- The word holds all of both keys. -/
theorem word_injective : Function.Injective TailKeys.word := by
  intro a b h
  have hlow : a.k1 = b.k1 := BitVec.eq_of_getLsbD_eq fun p hp => by
    rw [← getLsbD_word_low a hp, h, getLsbD_word_low b hp]
  have hhigh : a.k2 = b.k2 := BitVec.eq_of_getLsbD_eq fun p _ => by
    rw [← getLsbD_word_high, h, getLsbD_word_high]
  exact (TailKeys.mk.injEq ..).mpr ⟨hlow, hhigh⟩

theorem word_xor (a b : TailKeys) : a.word ^^^ b.word = TailKeys.word ⟨a.k1 ^^^ b.k1, a.k2 ^^^ b.k2⟩ := BitVec.xor_append
theorem word_or (a b : TailKeys) : a.word ||| b.word = TailKeys.word ⟨a.k1 ||| b.k1, a.k2 ||| b.k2⟩ := BitVec.or_append

/-- A tail byte in its lane of the word (42_finalize R121). -/
def laneField (e : Byte × Nat) : BitVec 128 := e.1.setWidth 128 <<< (8 * e.2)

/-- Lanes 0 to 7 lie in `k1`. -/
theorem laneField_of_lt {e : Byte × Nat} (h : e.2 < 8) : laneField e = TailKeys.word ⟨zext64 e.1 <<< (8 * e.2), 0⟩ := by
  refine BitVec.eq_of_getLsbD_eq fun p hp => ?_
  by_cases hlow : p < 64
  · rw [getLsbD_word_low _ hlow]
    simp [laneField, zext64, hp, hlow]
  · have habove : 8 ≤ p - 8 * e.2 := by omega
    obtain ⟨q, rfl⟩ : ∃ q, p = 64 + q := ⟨p - 64, by omega⟩
    simp [getLsbD_word_high, laneField, BitVec.getLsbD_of_ge e.1 _ habove]

/-- Lanes 8 to 14 lie in `k2`. -/
theorem laneField_of_ge {e : Byte × Nat} (h : 8 ≤ e.2) : laneField e = TailKeys.word ⟨0, zext64 e.1 <<< (8 * (e.2 - 8))⟩ := by
  refine BitVec.eq_of_getLsbD_eq fun p hp => ?_
  by_cases hlow : p < 64
  · simp [getLsbD_word_low _ hlow, laneField, show p < 8 * e.2 by omega]
  · obtain ⟨q, rfl⟩ : ∃ q, p = 64 + q := ⟨p - 64, by omega⟩
    have hlane : 64 + q - 8 * e.2 = q - 8 * (e.2 - 8) := by omega
    have hbelow : 64 + q < 8 * e.2 ↔ q < 8 * (e.2 - 8) := by omega
    rw [getLsbD_word_high]
    simp [laneField, zext64, hp, hlane, hbelow, show q < 64 by omega]

/-- One turn of the loop joins the byte's lane to the word. -/
theorem packByte_word (k : TailKeys) (e : Byte × Nat) : (packByte k e).word = k.word ^^^ laneField e := by
  unfold packByte
  split
  case isTrue h => rw [laneField_of_ge h, word_xor]; simp
  case isFalse h => rw [laneField_of_lt (Nat.not_le.mp h), word_xor]; simp

/-- One turn of the loop with OR for XOR (42_finalize R122). -/
def packByteOr (k : TailKeys) (e : Byte × Nat) : TailKeys :=
  if 8 ≤ e.2 then { k with k2 := k.k2 ||| (zext64 e.1 <<< (8 * (e.2 - 8))) }
  else { k with k1 := k.k1 ||| (zext64 e.1 <<< (8 * e.2)) }

theorem packByteOr_word (k : TailKeys) (e : Byte × Nat) : (packByteOr k e).word = k.word ||| laneField e := by
  unfold packByteOr
  split
  case isTrue h => rw [laneField_of_ge h, word_or]; simp
  case isFalse h => rw [laneField_of_lt (Nat.not_le.mp h), word_or]; simp

/-- What XOR and OR have in common: bits may be joined in any order, and bits that do not overlap are joined as by OR. -/
structure JoinsBits (op : BitVec 128 → BitVec 128 → BitVec 128) : Prop where
  assoc : ∀ x y z, op (op x y) z = op x (op y z)
  comm : ∀ x y, op x y = op y x
  zero : ∀ x, op x 0#128 = x
  shift : ∀ x y (n : Nat), op x y <<< n = op (x <<< n) (y <<< n)
  disjoint : ∀ x y, x &&& y = 0#128 → op x y = x ||| y

theorem xor_joinsBits : JoinsBits (· ^^^ ·) where
  assoc := BitVec.xor_assoc
  comm := BitVec.xor_comm
  zero _ := BitVec.xor_zero
  shift := BitVec.shiftLeft_xor_distrib
  disjoint x y h := by
    have hbit : ∀ a b : Bool, (a && b) = false → (a ^^ b) = (a || b) := by decide
    refine BitVec.eq_of_getLsbD_eq fun p _ => ?_
    rw [BitVec.getLsbD_xor, BitVec.getLsbD_or, hbit _ _ (by rw [← BitVec.getLsbD_and, h, BitVec.getLsbD_zero])]

theorem or_joinsBits : JoinsBits (· ||| ·) where
  assoc := BitVec.or_assoc
  comm := BitVec.or_comm
  zero _ := BitVec.or_zero
  shift := BitVec.shiftLeft_or_distrib
  disjoint _ _ _ := rfl

/-- The first lane and the lanes above it do not overlap. -/
theorem firstLane_and_shift (b : Byte) (x : BitVec 128) : b.setWidth 128 &&& (x <<< 8) = 0#128 := by
  refine BitVec.eq_of_getLsbD_eq fun p _ => ?_
  by_cases hp : p < 8
  · simp [hp]
  · simp [BitVec.getLsbD_of_ge b p (by omega)]

section
variable {op : BitVec 128 → BitVec 128 → BitVec 128} (hop : JoinsBits op)
include hop

/-- In order, the tail's lanes from lane `n` on join to the tail packed as a beat (30_encoding R63). -/
theorem foldl_laneField (tail : List Byte) (n : Nat) (w : BitVec 128) :
    (tail.zipIdx n).foldl (fun w e => op w (laneField e)) w = op w (packLanes tail <<< (8 * n)) := by
  induction tail generalizing n w with
  | nil => simp [packLanes, hop.zero]
  | cons b bs ih =>
    have hpack : packLanes (b :: bs) = op (b.setWidth 128) (packLanes bs <<< 8) :=
      (hop.disjoint _ _ (firstLane_and_shift b _)).symm
    rw [List.zipIdx_cons, List.foldl_cons, ih, hpack, hop.shift, ← BitVec.shiftLeft_add, hop.assoc, Nat.mul_succ, Nat.add_comm 8]
    rfl

/-- In any order, a loop that joins each byte's lane packs the tail as a beat is packed (42_finalize R122). -/
theorem foldl_word_of_perm {pack : TailKeys → Byte × Nat → TailKeys} (hpack : ∀ k e, (pack k e).word = op k.word (laneField e))
    {tail : List Byte} {order : List (Byte × Nat)} (horder : order.Perm tail.zipIdx) :
    (order.foldl pack { k1 := 0, k2 := 0 }).word = packLanes tail := by
  have : RightCommutative fun w e => op w (laneField e) := ⟨fun w a b => by rw [hop.assoc, hop.comm (laneField a), ← hop.assoc]⟩
  calc (order.foldl pack { k1 := 0, k2 := 0 }).word
      = order.foldl (fun w e => op w (laneField e)) 0#128 := (List.foldl_hom TailKeys.word fun k e => (hpack k e).symm).symm
    _ = tail.zipIdx.foldl (fun w e => op w (laneField e)) 0#128 := horder.foldl_eq _
    _ = packLanes tail := by rw [foldl_laneField hop, hop.comm, hop.zero]; simp

end

/-- The key words are the halves of the tail packed as a beat. -/
theorem packTail_word (tail : List Byte) : (packTail tail).word = packLanes tail :=
  foldl_word_of_perm xor_joinsBits packByte_word (.refl _)

/-- Settles O22: XOR and OR both join the lanes, in whatever order, to the tail packed as a beat. -/
theorem tailPackingOrderImmaterial : Obligations.TailPackingOrderImmaterial := fun tail _ _ horder =>
  ⟨word_injective ((foldl_word_of_perm xor_joinsBits packByte_word horder).trans (packTail_word tail).symm),
    word_injective ((foldl_word_of_perm or_joinsBits packByteOr_word horder).trans (packTail_word tail).symm)⟩

/-- The key words are the little-endian words of tail bytes 0 to 7 and of those after (42_finalize R121). -/
theorem packTail_eq_le64 {tail : List Byte} (htail : tail.length ≤ 16) :
    packTail tail = { k1 := le64 (tail.take 8), k2 := le64 (tail.drop 8) } := by
  refine word_injective (BitVec.eq_of_getLsbD_eq fun p hp => ?_)
  rw [packTail_word, getLsbD_packLanes tail htail]
  by_cases hlow : p < 64
  · rw [getLsbD_word_low _ hlow, le64PlacesBytes _ (List.length_take_le _ _) p hlow, List.getElem?_take_of_lt (by omega)]
  · obtain ⟨q, rfl⟩ : ∃ q, p = 64 + q := ⟨p - 64, by omega⟩
    rw [getLsbD_word_high, le64PlacesBytes _ (by rw [List.length_drop]; omega) q (by omega), List.getElem?_drop,
      show (64 + q) / 8 = 8 + q / 8 by omega, show (64 + q) % 8 = q % 8 by omega]

/-- Bit `j` of tail byte `i` in the word of the keys (42_finalize R121). -/
theorem getLsbD_packTail_word {tail : List Byte} (htail : tail.length ≤ 16) {i : Nat} {b : Byte} (hb : tail[i]? = some b)
    {j : Nat} (hj : j < 8) : (packTail tail).word.getLsbD (8 * i + j) = b.getLsbD j := by
  have hbyte : (8 * i + j) / 8 = i := by omega
  have hbit : (8 * i + j) % 8 = j := by omega
  simp [packTail_word, getLsbD_packLanes tail htail, hbyte, hbit, hb]

/-- Settles O21: lanes 0 to 7 of the word lie in `k1`, the others in `k2`. -/
theorem tailPackingIsLittleEndian : Obligations.TailPackingIsLittleEndian := by
  intro tail htail
  refine ⟨packTail_eq_le64 (by omega), fun i b hb j hj => ?_⟩
  rw [← getLsbD_packTail_word (by omega) hb hj]
  split
  case isTrue h => exact (getLsbD_word_low _ (by omega)).symm
  case isFalse h => rw [← getLsbD_word_high, show 64 + (8 * (i - 8) + j) = 8 * i + j by omega]

/-- No byte lies in `k2` up to eight tail bytes (42_finalize R124). -/
theorem packTail_k2_of_le {tail : List Byte} (htail : tail.length ≤ 8) : (packTail tail).k2 = 0 := by
  rw [packTail_eq_le64 (by omega), List.drop_of_length_le htail, le64_nil]

/-- Mixing both words always gives the same: a word without bytes is 0 and mixes to 0 (42_finalize R123). -/
theorem mixTail_eq (x1 x2 : Word) (tail : List Byte) :
    mixTail ⟨x1, x2⟩ tail = ⟨x1 ^^^ mixK1 (packTail tail).k1, x2 ^^^ mixK2 (packTail tail).k2⟩ := by
  have hk1 (h : ¬ 1 ≤ tail.length) : mixK1 (packTail tail).k1 = 0 := by
    obtain rfl : tail = [] := List.eq_nil_of_length_eq_zero (by omega)
    exact mixK1_zero
  have hk2 (h : ¬ 9 ≤ tail.length) : mixK2 (packTail tail).k2 = 0 := by rw [packTail_k2_of_le (by omega), mixK2_zero]
  rw [mixTail, Accumulators.mk.injEq]
  constructor
  · split
    case isTrue => rfl
    case isFalse h => rw [hk1 h]; exact BitVec.xor_zero.symm
  · split
    case isTrue => rfl
    case isFalse h => rw [hk2 h]; exact BitVec.xor_zero.symm

/-- Settles O23: the conditions of `mixTail` are the first form, and the last one is `mixTail_eq`; the empty tail mixes nothing. -/
theorem tailMixingForms : Obligations.TailMixingForms := by
  refine fun x1 x2 tail _ => ⟨rfl, rfl, ?_, mixTail_eq x1 x2 tail⟩
  split
  case isTrue => exact mixTail_eq x1 x2 tail
  case isFalse h =>
    obtain rfl : tail = [] := List.eq_nil_of_length_eq_zero (by omega)
    rfl

/-- Settles O24: all eight bytes are the first word's, and `mixTail` needs nine for the second. -/
theorem eightByteTailMixesOnlyK1 : Obligations.EightByteTailMixesOnlyK1 := by
  intro x1 x2 tail htail
  refine ⟨?_, packTail_k2_of_le (by omega), if_neg (by omega)⟩
  rw [packTail_eq_le64 (by omega), List.take_of_length_le (by omega)]

end Sys2Proof.Machine
end

section
/-! PROOFS. FINALIZE (spec 42_finalize R120, R125, R127 to R129, R131): its answer, and that the stream and later digests do not see it. -/

namespace Sys2Proof.Machine

/-- Settles O4: OP = 11 picks the decoder's FINALIZE arm, and the command is `machineAfter`. -/
theorem finalizeReturnsDigest : Obligations.FinalizeReturnsDigest :=
  ⟨fun _ => decode_finalize, exec_eq .finalize⟩

/-- Settles O25: `crossAdd` is the pair of additions, before and after fmix64. -/
theorem lengthMixingStepByStep : Obligations.LengthMixingStepByStep := fun _ _ _ _ => rfl

/-- Settles O58: the two words side by side, `h1final` filling the low 64 bits. -/
theorem digestValueWordOrder : Obligations.DigestValueWordOrder := by
  intro d
  rw [Digest.value, BitVec.toNat_append, ← Nat.shiftLeft_add_eq_or_of_lt d.h1final.isLt, Nat.shiftLeft_eq]

/-- FINALIZE writes only `phase` (42_finalize R128). -/
theorem engineAfter_finalize_agree (st : HashState) : (engineAfter .finalize st).AgreeButPhase st := ⟨rfl, rfl, rfl, rfl⟩

/-- Leaving FINALIZE out keeps agreement but in `phase`, from states that so agree (42_finalize R128; 41_include R113). -/
theorem execAll_without_finalize_agree (is : List Instr) (a b : State) (h : a.st.AgreeButPhase b.st) :
    ∃ a' b', execAll is a = .next a' ∧ execAll (is.filter (fun i => decide (i ≠ .finalize))) b = .next b' ∧
      a'.st.AgreeButPhase b'.st := by
  induction is generalizing a b with
  | nil => exact ⟨a, b, rfl, rfl, h⟩
  | cons i is ih =>
    by_cases hi : i = .finalize
    · subst hi
      simpa [execAll_cons] using ih (machineAfter .finalize a) b (agreeButPhase_trans (engineAfter_finalize_agree a.st) h)
    · simpa [execAll_cons, hi] using ih _ _ (engineAfter_agreeButPhase i h)

/-- Settles O29: a state agrees with itself. -/
theorem finalizeLeavesStreamAlone : Obligations.FinalizeLeavesStreamAlone :=
  fun is s => execAll_without_finalize_agree is s s ⟨rfl, rfl, rfl, rfl⟩

/-- A command that keeps the stream writes only `phase` (42_finalize R129). -/
theorem engineAfter_agree_of_keepsStream {i : Instr} {st : HashState} (hi : keepsStream i = true) (htail : st.tail.length ≤ 15) :
    (engineAfter i st).AgreeButPhase st := by
  cases i with
  | reset seed => exact absurd hi Bool.false_ne_true
  | includeBeat beat =>
    obtain rfl : beat = [] := List.isEmpty_iff.mp hi
    rw [engineAfter, includeState_nil htail]
    exact ⟨rfl, rfl, rfl, rfl⟩
  | finalize | illegalOp0 | illegalIncludeLen => exact ⟨rfl, rfl, rfl, rfl⟩

/-- A sequence of commands that keep the stream writes only `phase` (42_finalize R129). -/
theorem execAll_agree_of_keepsStream {is : List Instr} {s : State} (his : ∀ i ∈ is, keepsStream i = true)
    (htail : s.st.tail.length ≤ 15) : ∃ s', execAll is s = .next s' ∧ s'.st.AgreeButPhase s.st := by
  induction is generalizing s with
  | nil => exact ⟨s, rfl, rfl, rfl, rfl, rfl⟩
  | cons i is ih =>
    obtain ⟨hi, his⟩ := List.forall_mem_cons.mp his
    have hfirst : (machineAfter i s).st.AgreeButPhase s.st := engineAfter_agree_of_keepsStream hi htail
    have ⟨_, _, _, hsameTail⟩ := hfirst
    obtain ⟨s', hrun, hrest⟩ := ih (s := machineAfter i s) his (hsameTail ▸ htail)
    exact ⟨s', (execAll_cons i is s).trans hrun, agreeButPhase_trans hrest hfirst⟩

/-- Settles O30: the first FINALIZE keeps the stream as the commands after it do, and the digest does not read `phase`. -/
theorem finalizeIdempotent : Obligations.FinalizeIdempotent := by
  intro is s htail his
  have hfirst : (machineAfter .finalize s).st.AgreeButPhase s.st := engineAfter_finalize_agree s.st
  obtain ⟨s', hrun, hagree⟩ := execAll_agree_of_keepsStream (s := machineAfter .finalize s) his htail
  have hdigest : s'.st.digest = s.st.digest := digest_congr (agreeButPhase_trans hagree hfirst)
  refine ⟨_, machineAfter .finalize s', responseTo .finalize s.st, responseTo .finalize s'.st, exec_eq .finalize s, ?_, by simp,
    by simp, rfl, congrArg some hdigest⟩
  rw [execAll_append _ _ _ _ hrun, execAll_cons, execAll]

end Sys2Proof.Machine
end


section
/-! PROOFS. RESET (spec 43_reset R140 to R143): its answer, the bits of the seed it widens, and that nothing before it is seen after it. -/

namespace Sys2Proof.Machine

/-- Settles O1: OP = 01 picks the decoder's RESET arm, and the command is `machineAfter`. -/
theorem resetReinitialisesFromSeed : Obligations.ResetReinitialisesFromSeed :=
  ⟨fun _ => decode_reset, fun seed s => exec_eq (.reset seed) s⟩

/-- A widened seed repeats its bit 31 from bit 31 on (43_reset R141). -/
theorem getLsbD_sext64 (seed : BitVec 32) {k : Nat} (hk : k < 64) : (sext64 seed).getLsbD k = seed.getLsbD (min k 31) := by
  rw [sext64, BitVec.getLsbD_signExtend, decide_eq_true hk, Bool.true_and]
  split
  case isTrue hlow => rw [Nat.min_eq_left (by omega)]
  case isFalse hhigh => rw [Nat.min_eq_right (by omega), BitVec.msb_eq_getLsbD_last]

/-- Settles O2: both accumulators are the widened seed. -/
theorem seedWideningCopiesBit31 : Obligations.SeedWideningCopiesBit31 :=
  fun seed s => ⟨_, exec_eq (.reset seed) s, fun _ hk => ⟨getLsbD_sext64 seed hk, getLsbD_sext64 seed hk⟩⟩

/-- After a RESET, the engine's state and the responses that a sequence adds are the same for every state before it (43_reset R142): the
sequence starts from `seededState`. -/
theorem execAll_reset_cons (seed : BitVec 32) (is : List Instr) :
    ∃ (st : HashState) (new : List Response), ∀ s : State,
      execAll (.reset seed :: is) s = .next { st := st, pending := s.pending, responses := s.responses ++ new } := by
  obtain ⟨f, g, h⟩ := execAll_shape is
  refine ⟨f (seededState seed), ⟨.ok, none, .fresh⟩ :: g (seededState seed), fun s => ?_⟩
  rw [execAll_cons, (h _).1]
  simp [machineAfter, engineAfter, responseTo]

/-- Settles O27: both runs end in the one engine state with the one list of new responses, and hardware reset seeds the state as RESET
does. -/
theorem resetErasesThePast : Obligations.ResetErasesThePast := by
  refine ⟨fun seed is a b => ?_, fun paramResetSeed s => ⟨_, exec_eq (.reset paramResetSeed) s, (resetWith_st paramResetSeed).symm⟩⟩
  obtain ⟨st, new, h⟩ := execAll_reset_cons seed is
  exact ⟨_, _, h a, h b, rfl, by rw [List.drop_left, List.drop_left]⟩

end Sys2Proof.Machine
end

section
/-! PROOFS. Illegal commands, the idle step and instances (spec 60_exceptions R164, R171, R173). -/

namespace Sys2Proof.Machine

/-- An illegal command writes nothing of the engine's state (60_exceptions R161). -/
theorem engineAfter_of_illegal {i : Instr} (hi : i.isLegal = false) (st : HashState) : engineAfter i st = st := by
  cases i with
  | reset | includeBeat | finalize => exact absurd hi.symm Bool.false_ne_true
  | illegalOp0 | illegalIncludeLen => rfl

/-- The OK responses are those to the legal commands (60_exceptions R160, R161). -/
theorem responseTo_status_eq_ok_iff (i : Instr) (st : HashState) : (responseTo i st).status = .ok ↔ i.isLegal = true := by
  cases i <;> simp [responseTo, Instr.isLegal]

/-- Leaving the illegal commands out, from any two states with the one engine state, leads to the one engine state, and adds the OK
responses alone (60_exceptions R164). -/
theorem execAll_without_illegal (is : List Instr) (a b : State) (h : a.st = b.st) :
    ∃ a' b' new, execAll is a = .next a' ∧ execAll (is.filter Instr.isLegal) b = .next b' ∧ a'.st = b'.st ∧
      a'.responses = a.responses ++ new ∧ b'.responses = b.responses ++ new.filter (fun r => decide (r.status = .ok)) := by
  induction is generalizing a b with
  | nil => exact ⟨a, b, [], rfl, rfl, h, (List.append_nil _).symm, (List.append_nil _).symm⟩
  | cons i is ih =>
    cases hi : i.isLegal with
    | false =>
      have hkept : (machineAfter i a).st = b.st := (engineAfter_of_illegal hi a.st).trans h
      obtain ⟨a', b', new, ha, hb, hst, hra, hrb⟩ := ih (machineAfter i a) b hkept
      refine ⟨a', b', responseTo i a.st :: new, (execAll_cons i is a).trans ha, ?_, hst, by simpa using hra, ?_⟩
      · simpa [hi] using hb
      · simpa [responseTo_status_eq_ok_iff, hi] using hrb
    | true =>
      have hboth : (machineAfter i a).st = (machineAfter i b).st := congrArg (engineAfter i) h
      obtain ⟨a', b', new, ha, hb, hst, hra, hrb⟩ := ih (machineAfter i a) (machineAfter i b) hboth
      refine ⟨a', b', responseTo i a.st :: new, (execAll_cons i is a).trans ha, ?_, hst, by simpa using hra, ?_⟩
      · simpa [hi, execAll_cons] using hb
      · simpa [responseTo_status_eq_ok_iff, hi, h] using hrb

/-- Settles O28: both runs start from the one state. -/
theorem illegalCommandsLeaveNoTrace : Obligations.IllegalCommandsLeaveNoTrace := by
  intro is s
  obtain ⟨s1, s2, new, hall, hlegal, hst, hresponses, hok⟩ := execAll_without_illegal is s s rfl
  exact ⟨s1, s2, hall, hlegal, hst, by rw [hresponses, hok, List.drop_left, List.drop_left]⟩

/-- With nothing presented a step keeps the state, for every PARAM_RESET_SEED (60_exceptions R173). -/
theorem stepWith_idle (seed : BitVec 32) {s : State} (h : s.pending = []) : stepWith seed s = .next s := by
  simp [stepWith, nextEvent, h]

/-- Settles O39: this hardware's step is the platform's step for the parameter 0. -/
theorem idleKeepsState : Obligations.IdleKeepsState :=
  fun _ h => ⟨stepWith_idle Config.paramResetSeed h, fun seed => stepWith_idle seed h⟩

/-- Where `f` is the engine's step, stepping engine `k` applies `f` at place `k` of the platform, and does nothing where there is no
such place (60_exceptions R171). -/
theorem stepInstance_eq_modify {seed : BitVec 32} {f : State → State} (hf : ∀ s, stepWith seed s = .next (f s)) (k : Nat)
    (p : Platform) : stepInstance seed k p = .next (p.modify k f) := by
  cases hk : p[k]? with
  | none => simp [stepInstance, hk, List.modify_eq_self (List.getElem?_eq_none_iff.mp hk)]
  | some s => simp [stepInstance, hk, hf, List.modify_eq_set_getElem?]

/-- Settles O57: every step ends in a next state, so stepping an engine modifies its one place, and modifications of two places
commute. -/
theorem instancesAreIndependent : Obligations.InstancesAreIndependent := by
  intro seed p j k hjk
  choose f hf using stepWith_total seed
  have hstep := stepInstance_eq_modify hf
  refine ⟨p.modify j f, p.modify k f, (p.modify j f).modify k f, hstep j p, hstep k p, hstep k _, ?_, ?_, ?_⟩
  · rw [hstep, List.modify_modify_ne f f p hjk]
  · intro s s' hs hnext
    obtain rfl : f s = s' := by simpa [hf] using hnext
    simp [hs]
  · intro i hi
    exact List.getElem?_modify_ne f p hi.symm

end Sys2Proof.Machine
end

section
/-! PROOFS. Hardware reset, the states a run may start from, and that a run is a function of where it starts and of what is presented
(spec 70_reset_and_hazards R180, R181, R190, R191). -/

namespace Sys2Proof.Machine

/-- One step's next engine state, what it leaves on the port and the responses it adds do not depend on the responses delivered before
it. -/
theorem stepWith_shape (seed : BitVec 32) (st : HashState) (events : List HostEvent) :
    ∃ (st' : HashState) (events' : List HostEvent) (new : List Response), ∀ delivered : List Response,
      stepWith seed ⟨st, events, delivered⟩ = .next ⟨st', events', delivered ++ new⟩ := by
  cases events with
  | nil => exact ⟨st, [], [], fun delivered => by rw [stepWith_idle seed rfl, List.append_nil]⟩
  | cons e rest =>
    cases e with
    | command w => exact ⟨engineAfter (decode w) st, rest, [responseTo (decode w) st], fun _ => stepWith_command seed rfl⟩
    | rst p => exact ⟨seededState seed, rest, [], fun delivered => by rw [stepWith_rst seed rfl, List.append_nil]; rfl⟩

/-- The same holds of a run of any length, step by step: the responses it adds do not depend on those delivered before it. -/
theorem run_shape (seed : BitVec 32) (k : Nat) (st : HashState) (events : List HostEvent) :
    ∃ (st' : HashState) (events' : List HostEvent) (new : List Response), ∀ delivered : List Response,
      (coreWith seed).run k (⟨st, events, delivered⟩ : State) = .next (⟨st', events', delivered ++ new⟩ : State) := by
  induction k generalizing st events with
  | zero => exact ⟨st, events, [], fun delivered => by rw [List.append_nil]; rfl⟩
  | succ k ih =>
    obtain ⟨st1, events1, first, hstep⟩ := stepWith_shape seed st events
    obtain ⟨st2, events2, later, hrun⟩ := ih st1 events1
    refine ⟨st2, events2, first ++ later, fun delivered => ?_⟩
    rw [run_succ seed k _ _ (hstep delivered), hrun, List.append_assoc]

/-- The observation of a run that started after the responses `delivered` is read off the responses it added (70_reset_and_hazards
R190). -/
theorem observation_append (st : HashState) (events : List HostEvent) (delivered new : List Response) :
    State.observation delivered.length ⟨st, events, delivered ++ new⟩ =
      new.map (fun r => (r.status.code, r.digest, r.phase.code)) := by
  simp [State.observation]

/-- Settles O59: from both states the run adds the same responses, and those are what is observed. -/
theorem observationIsDetermined : Obligations.ObservationIsDetermined := by
  rintro seed k ⟨st, events, before⟩ ⟨_, _, before'⟩ rfl rfl
  obtain ⟨st', events', new, hrun⟩ := run_shape seed k st events
  exact ⟨_, _, hrun before, hrun before', rfl, by rw [observation_append, observation_append]⟩

/-- A state of a stream meets the engine's invariant: its tail is what the stream's blocks leave over (10_state R27). -/
theorem inv_of_represents {st : HashState} {x : ByteStream} (h : st.Represents x) : st.Inv := by
  obtain ⟨htail, _, _, _, hmod⟩ := streamInvariantFields st x h
  have hbound : st.tailLen ≤ 15 := by omega
  exact ⟨hbound, hmod⟩

/-- Settles O60: hardware reset counts nothing and holds no tail byte, and any other start is a state of a stream. -/
theorem runStartsMeetInvariant : Obligations.RunStartsMeetInvariant := by
  rintro s (⟨seed, hreset⟩ | ⟨x, hstream⟩)
  · exact hreset ▸ seededState_inv seed
  · exact inv_of_represents hstream

/-- Settles O36: an assertion of `RST` and a RESET with the parameter as its seed both leave the seeded state. -/
theorem rstResetsWithoutResponse : Obligations.RstResetsWithoutResponse :=
  ⟨fun seed _ _ s h => ⟨_, machineAfter (.reset seed) s, stepWith_rst seed h, exec_eq (.reset seed) s, rfl, rfl, rfl, rfl⟩,
    rfl, reset_eq, step_eq⟩

/-- Settles O37: the step at an assertion of `RST` reads neither the command in progress nor what is presented behind it. -/
theorem rstLeavesPresentedEvents : Obligations.RstLeavesPresentedEvents :=
  fun seed _ _ _ h => ⟨_, stepWith_rst seed h, rfl, stepWith_rst seed rfl⟩

end Sys2Proof.Machine
end
